-- ==== Sys2Proof/Word.lean ====
section
/-! DEFINITION. The word types of the alvm CORE (00_scope.md R6, R7, R8) and the reading of a word as a number. -/

namespace Sys2Proof

/-- A byte of the instruction stream (R7). -/
abbrev Byte := BitVec 8

/-- A 32-bit word: the contents of a general register, read as signed (R21), or of `rem`, read as unsigned (R28). -/
abbrev Word := BitVec 32

/-- A 16-bit immediate, unsigned (R6 `IMMLEN`). -/
abbrev Imm := BitVec 16

/-- A general register's index, 0..31 (R6, R22). A register byte outside it is refused by the decoder. -/
abbrev Reg := Fin 32

/-- `s32(w)` of R8: the signed value of a word. -/
abbrev s32 (w : Word) : Int := w.toInt

/-- `u32(w)` of R8: the unsigned value of a word. -/
abbrev u32 (w : Word) : Nat := w.toNat

/-- `word32(n)` of R8: the word whose value is `n mod 2^32`. -/
abbrev word32 (n : Int) : Word := BitVec.ofInt 32 n

end Sys2Proof
end

