-- ==== Sys2Proof/Config.lean ====
section
/-! DEFINITION. What an implementation fixes (00_scope.md R6): the closed set of opcodes (R63), the parameters
`OPCODE_MAP`, `ARITH_DEST_POS` and `PROG_CAP`, and the laws a replacement `OPCODE_MAP` must keep (R66).
The values the machine runs with are `hwConfig` in Sys2Proof/Decode.lean. -/

namespace Sys2Proof

/-- The 17 tags of R63, in the source's list order. -/
inductive Opcode where
  | load | add | sub | mul | div | hlt | jmp | jmpf | jmpb
  | eq | neq | gte | lte | lt | gt | jmpe | illegal
  deriving DecidableEq, Repr

/-- The 16 real opcodes (R63): all but ILLEGAL. -/
def Opcode.real : List Opcode :=
  [.load, .add, .sub, .mul, .div, .hlt, .jmp, .jmpf, .jmpb, .eq, .neq, .gte, .lte, .lt, .gt, .jmpe]

/-- The five instruction formats (R62). -/
inductive Format where
  | f0    -- op
  | fr    -- op ra
  | fri   -- op rd imm16[15:8] imm16[7:0]
  | frrr  -- op and three register bytes
  | frrx  -- op rs1 rs2 pad
  deriving DecidableEq, Repr

/-- `ARITH_DEST_POS` (R72): which register byte of ADD, SUB, MUL and DIV is the destination. -/
inductive DestPos where
  | last   -- 3: byte 1 is rs1, byte 2 is rs2, byte 3 is rd (the default)
  | first  -- 1: byte 1 is rd, byte 2 is rs1, byte 3 is rs2
  deriving DecidableEq, Repr

/-- The parameters that decoding depends on (R6, R74). -/
structure Config where
  /-- `OPCODE_MAP` (R63): the entry at index `k` is the opcode of byte code `k`. -/
  opcodeMap : List Opcode
  /-- `ARITH_DEST_POS` (R72). -/
  arithDestPos : DestPos
  deriving DecidableEq, Repr

/-- What R63 and R66 ask of an `OPCODE_MAP`: codes 0..15, one for each real opcode, none for ILLEGAL. -/
abbrev Config.Lawful (c : Config) : Prop :=
  c.opcodeMap.length = 16 ∧ c.opcodeMap.Nodup ∧ Opcode.illegal ∉ c.opcodeMap ∧
    ∀ op ∈ Opcode.real, op ∈ c.opcodeMap

/-- The free value behind `PROG_CAP` (R6, R47, D18: OPEN). No body: nothing can be proved of its value. Log entry 3. -/
opaque Config.progCapPred : Nat

/-- `PROG_CAP`: a positive natural number (R6), otherwise unconstrained. -/
def Config.progCap : Nat := Config.progCapPred + 1

end Sys2Proof
end

