-- ==== Sys2Proof/Syntax.lean ====
section
/-! DEFINITION. The instructions, one constructor per row of spec/opcode_table.json, with the operand fields of
30_encoding.md R62 (names after 00_scope.md R13). -/

namespace Sys2Proof

/-- A decoded instruction. Register operands are valid by their type: the decoder has checked the bytes (R22, R68). -/
inductive Instr where
  | load (rd : Reg) (imm16 : Imm)       -- R130, format FRI
  | add (rs1 rs2 rd : Reg)              -- R140, format FRRR
  | sub (rs1 rs2 rd : Reg)              -- R141
  | mul (rs1 rs2 rd : Reg)              -- R142
  | div (rs1 rs2 rd : Reg)              -- R143
  | hlt                                 -- R150, format F0
  | jmp (ra : Reg)                      -- R151, format FR
  | jmpf (ra : Reg)                     -- R152
  | jmpb (ra : Reg)                     -- R153
  | eq (rs1 rs2 : Reg) (pad : Byte)     -- R161, format FRRX: the pad byte is kept as read (R69)
  | neq (rs1 rs2 : Reg) (pad : Byte)    -- R162
  | gte (rs1 rs2 : Reg) (pad : Byte)    -- R163
  | lte (rs1 rs2 : Reg) (pad : Byte)    -- R164
  | lt (rs1 rs2 : Reg) (pad : Byte)     -- R165
  | gt (rs1 rs2 : Reg) (pad : Byte)     -- R166
  | jmpe (ra : Reg)                     -- R170, format FR
  | illegal (b0 : Byte)                 -- R175, format F0: the offending byte is kept for the halt reason (R102)
  deriving DecidableEq, Repr

end Sys2Proof
end

