-- ==== Sys2Proof/WellFormed.lean ====
section
/-! DEFINITION. Which instructions the decoder may produce. Register indices, immediates and pad bytes are in range
by their types, so the one check left is on ILLEGAL's byte. -/

namespace Sys2Proof

/-- ILLEGAL stands for an opcode byte outside 0..15 (30_encoding.md R64); every other term is well formed. -/
def Instr.wellFormed : Instr → Bool
  | .illegal b0 => decide (16 ≤ b0.toNat)
  | .load _ _ | .add _ _ _ | .sub _ _ _ | .mul _ _ _ | .div _ _ _ | .hlt | .jmp _ | .jmpf _ | .jmpb _
  | .eq _ _ _ | .neq _ _ _ | .gte _ _ _ | .lte _ _ _ | .lt _ _ _ | .gt _ _ _ | .jmpe _ => true

end Sys2Proof
end

