-- ==== Sys2Proof/Decode.lean ====
section
/-! DEFINITION. The wire contract of 30_encoding.md: the opcode map (R63 to R66), instruction lengths (R70), the
decoder of the bytes at the program counter (R60 to R74), and the encoder written from the same formats. -/

namespace Sys2Proof

/-! ### The opcode map -/

/-- The default `OPCODE_MAP` of R63 (decision D1): codes 0 to 15 in the source's list order. Log entry 1. -/
def defaultOpcodeMap : List Opcode :=
  [.load, .add, .sub, .mul, .div, .hlt, .jmp, .jmpf, .jmpb, .eq, .neq, .gte, .lte, .lt, .gt, .jmpe]

/-- The configuration the machine runs with: the default map and `ARITH_DEST_POS = 3` (R6, R63, R72). Log entries 1, 2. -/
def hwConfig : Config := { opcodeMap := defaultOpcodeMap, arithDestPos := .last }

/-- The sentinel byte of ILLEGAL (R6, R65). -/
def sentinel : Byte := 200

/-- Decode of an opcode byte, total (R64): a byte with no code in the map is ILLEGAL. -/
def decodeOpcode (c : Config) (b : Byte) : Opcode :=
  if b.toNat < 16 then c.opcodeMap.getD b.toNat .illegal else .illegal

/-- Encode of an opcode, total (R65). -/
def encodeOpcode (c : Config) (op : Opcode) : Byte :=
  if op = .illegal then sentinel else BitVec.ofNat 8 (c.opcodeMap.idxOf op)

/-- The opcode of an instruction. -/
def Instr.opcode : Instr → Opcode
  | .load _ _ => .load
  | .add _ _ _ => .add
  | .sub _ _ _ => .sub
  | .mul _ _ _ => .mul
  | .div _ _ _ => .div
  | .hlt => .hlt
  | .jmp _ => .jmp
  | .jmpf _ => .jmpf
  | .jmpb _ => .jmpb
  | .eq _ _ _ => .eq
  | .neq _ _ _ => .neq
  | .gte _ _ _ => .gte
  | .lte _ _ _ => .lte
  | .lt _ _ _ => .lt
  | .gt _ _ _ => .gt
  | .jmpe _ => .jmpe
  | .illegal _ => .illegal

/-! ### Formats and instruction lengths -/

/-- The format of each opcode (R62, R63). -/
def Opcode.format : Opcode → Format
  | .load => .fri
  | .add | .sub | .mul | .div => .frrr
  | .eq | .neq | .gte | .lte | .lt | .gt => .frrx
  | .jmp | .jmpf | .jmpb | .jmpe => .fr
  | .hlt | .illegal => .f0

/-- The number of bytes of a format (R62). -/
def Format.length : Format → Nat
  | .f0 => 1
  | .fr => 2
  | .fri | .frrr | .frrx => 4

/-- `regpos` of R104: the positions of a format's register bytes. The pad byte is none of them. -/
def Format.regPositions : Format → List Nat
  | .f0 => []
  | .fr | .fri => [1]
  | .frrr => [1, 2, 3]
  | .frrx => [1, 2]

/-- `length(op)` in bytes (R70). -/
def Opcode.length (op : Opcode) : Nat := op.format.length

/-- The length of an instruction: its opcode's. -/
def Instr.length (i : Instr) : Nat := i.opcode.length

/-- The longest instruction, in bytes (R70). -/
def maxLength : Nat := 4

/-! ### Decoding -/

/-- Why the decoder gives no instruction, by name. -/
inductive DecodeError where
  /-- There is no byte to read an opcode from. -/
  | noBytes
  /-- LENGTH_CHECK of R104: the bytes after the opcode byte `b0` are too few. -/
  | truncated (b0 : Byte)
  /-- VALIDATE of R104 (R22, R68): operand byte `k` has the value `b`, which is no register index. -/
  | badRegister (b0 : Byte) (k : Nat) (b : Byte)
  deriving DecidableEq, Repr

/-- A register byte is valid iff it is 0..31 (R22, R61). -/
def regOfByte (b : Byte) : Option Reg :=
  if h : b.toNat < 32 then some ⟨b.toNat, h⟩ else none

/-- The register byte of an index (R77: one raw byte). -/
def regByte (r : Reg) : Byte := BitVec.ofNat 8 r.val

/-- `imm16 = byte 2 ++ byte 3`, big-endian (R42, R67). -/
def immOfBytes (hi lo : Byte) : Imm := hi ++ lo

/-- Bits 15..8 of an immediate: the byte at the lower offset. -/
def immHi (v : Imm) : Byte := v.extractLsb' 8 8

/-- Bits 7..0 of an immediate. -/
def immLo (v : Imm) : Byte := v.extractLsb' 0 8

/-- Validate operand byte `k`, then go on with the register it names. -/
def withReg (b0 : Byte) (k : Nat) (b : Byte) (go : Reg → Except DecodeError Instr) : Except DecodeError Instr :=
  match regOfByte b with
  | some r => go r
  | none => .error (.badRegister b0 k b)

/-- Format FR (R62): `op ra`. The arguments after `b0` are the bytes after the opcode byte. -/
def decodeFR (b0 : Byte) (mk : Reg → Instr) : List Byte → Except DecodeError Instr
  | b1 :: _ => withReg b0 1 b1 fun ra => .ok (mk ra)
  | _ => .error (.truncated b0)

/-- Format FRI (R62): `op rd imm_hi imm_lo`. -/
def decodeFRI (b0 : Byte) (mk : Reg → Imm → Instr) : List Byte → Except DecodeError Instr
  | b1 :: b2 :: b3 :: _ => withReg b0 1 b1 fun rd => .ok (mk rd (immOfBytes b2 b3))
  | _ => .error (.truncated b0)

/-- Format FRRR (R62, R72): three register bytes, validated in byte order; `mk` takes rs1, rs2, rd. -/
def decodeFRRR (c : Config) (b0 : Byte) (mk : Reg → Reg → Reg → Instr) : List Byte → Except DecodeError Instr
  | b1 :: b2 :: b3 :: _ =>
    withReg b0 1 b1 fun r1 => withReg b0 2 b2 fun r2 => withReg b0 3 b3 fun r3 =>
      match c.arithDestPos with
      | .last => .ok (mk r1 r2 r3)
      | .first => .ok (mk r2 r3 r1)
  | _ => .error (.truncated b0)

/-- Format FRRX (R62, R69, R73): two register bytes and a pad byte that is not validated. -/
def decodeFRRX (b0 : Byte) (mk : Reg → Reg → Byte → Instr) : List Byte → Except DecodeError Instr
  | b1 :: b2 :: b3 :: _ => withReg b0 1 b1 fun rs1 => withReg b0 2 b2 fun rs2 => .ok (mk rs1 rs2 b3)
  | _ => .error (.truncated b0)

/-- The operand bytes of an opcode, by its format (R60, R62). -/
def decodeOperands (c : Config) (b0 : Byte) (rest : List Byte) : Opcode → Except DecodeError Instr
  | .load => decodeFRI b0 .load rest
  | .add => decodeFRRR c b0 .add rest
  | .sub => decodeFRRR c b0 .sub rest
  | .mul => decodeFRRR c b0 .mul rest
  | .div => decodeFRRR c b0 .div rest
  | .hlt => .ok .hlt
  | .jmp => decodeFR b0 .jmp rest
  | .jmpf => decodeFR b0 .jmpf rest
  | .jmpb => decodeFR b0 .jmpb rest
  | .eq => decodeFRRX b0 .eq rest
  | .neq => decodeFRRX b0 .neq rest
  | .gte => decodeFRRX b0 .gte rest
  | .lte => decodeFRRX b0 .lte rest
  | .lt => decodeFRRX b0 .lt rest
  | .gt => decodeFRRX b0 .gt rest
  | .jmpe => decodeFR b0 .jmpe rest
  | .illegal => .ok (.illegal b0)

/-- The decoder, total on any bytes: the instruction that starts at the first byte, whatever follows it (R74). -/
def decodeWith (c : Config) : List Byte → Except DecodeError Instr
  | [] => .error .noBytes
  | b0 :: rest => decodeOperands c b0 rest (decodeOpcode c b0)

/-- The machine's decoder. -/
def decode (bytes : List Byte) : Except DecodeError Instr := decodeWith hwConfig bytes

/-! ### Encoding -/

/-- The operand bytes of format FRRR in byte order (R72). -/
def encodeFRRR (c : Config) (rs1 rs2 rd : Reg) : List Byte :=
  match c.arithDestPos with
  | .last => [regByte rs1, regByte rs2, regByte rd]
  | .first => [regByte rd, regByte rs1, regByte rs2]

/-- The operand bytes of an instruction (R62, R82). -/
def encodeOperands (c : Config) : Instr → List Byte
  | .load rd v => [regByte rd, immHi v, immLo v]
  | .add rs1 rs2 rd => encodeFRRR c rs1 rs2 rd
  | .sub rs1 rs2 rd => encodeFRRR c rs1 rs2 rd
  | .mul rs1 rs2 rd => encodeFRRR c rs1 rs2 rd
  | .div rs1 rs2 rd => encodeFRRR c rs1 rs2 rd
  | .hlt => []
  | .jmp ra => [regByte ra]
  | .jmpf ra => [regByte ra]
  | .jmpb ra => [regByte ra]
  | .eq rs1 rs2 pad => [regByte rs1, regByte rs2, pad]
  | .neq rs1 rs2 pad => [regByte rs1, regByte rs2, pad]
  | .gte rs1 rs2 pad => [regByte rs1, regByte rs2, pad]
  | .lte rs1 rs2 pad => [regByte rs1, regByte rs2, pad]
  | .lt rs1 rs2 pad => [regByte rs1, regByte rs2, pad]
  | .gt rs1 rs2 pad => [regByte rs1, regByte rs2, pad]
  | .jmpe ra => [regByte ra]
  | .illegal _ => []

/-- The bytes of an instruction. ILLEGAL is always encoded as the sentinel (R65), whatever byte it was decoded from. -/
def encodeWith (c : Config) (i : Instr) : List Byte := encodeOpcode c i.opcode :: encodeOperands c i

/-- The machine's encoder. -/
def encode (i : Instr) : List Byte := encodeWith hwConfig i

/-- The byte position of a DIV's divisor, for the fault record (R182: byte 2 with the default `ARITH_DEST_POS`). -/
def Config.divisorPos (c : Config) : Nat :=
  match c.arithDestPos with
  | .last => 2
  | .first => 3

/-! ### The opcode table's words -/

/-- The `n` low bytes of `w`, most significant first: R62 counts an instruction's bits as one big-endian string. -/
def bigEndianBytes : Nat → Nat → List Byte
  | 0, _ => []
  | n + 1, w => BitVec.ofNat 8 (w >>> (8 * n)) :: bigEndianBytes n w

/-- The bytes of an instruction whose bits are `w`, in the order they lie in the buffer, with zero bytes after them up
to the longest instruction. -/
def tableBytes (nbits w : Nat) : List Byte :=
  bigEndianBytes ((nbits + 7) / 8) w ++ List.replicate (maxLength - (nbits + 7) / 8) 0

/-- The instruction the decoder reads from a word of spec/opcode_table.json. -/
def decodeTableWord (nbits w : Nat) : Option Instr :=
  match decode (tableBytes nbits w) with
  | .ok i => some i
  | .error _ => none

end Sys2Proof
end

