-- ==== Sys2Proof/Machine/State.lean ====
section
/-! DEFINITION. The state of the core (10_state.md R20), what a step can stop with (60_exceptions.md R181, R182), and the
state after reset (R35). -/

namespace Sys2Proof.Machine

/-- The run state (R29). -/
inductive RunState where
  | running
  | halted
  deriving DecidableEq, Repr

/-- What a RuntimeFault carries beside its kind (R182). -/
structure FaultRecord where
  /-- The opcode byte b0, as read. -/
  opcode : Byte
  /-- The offset of the opcode byte. -/
  pc : Nat
  /-- The position and value of the offending operand byte, or none. -/
  operand : Option (Nat × Byte)
  deriving DecidableEq, Repr

/-- The RuntimeFault kinds of R181. A fault is a step's outcome and changes no state (R183). Each is the outcome the
spec itself gives, so stopping there is safe. -/
inductive Fault where
  /-- DIV with x[rs2] = 0 (R143). Safe. -/
  | divideByZero (r : FaultRecord)
  /-- The decoder's VALIDATE phase: a register byte above 31 (R22, R68, R104). Safe. -/
  | registerIndexOutOfRange (r : FaultRecord)
  /-- A jump whose target is below 0 (R155). Safe. -/
  | jumpBelowZero (r : FaultRecord)
  /-- A jump whose target is above `len` (R155). Safe. -/
  | jumpBeyondEnd (r : FaultRecord)
  /-- JMPF or JMPB with x[ra] < 0 (R152, R153). Safe. -/
  | negativeJumpDistance (r : FaultRecord)
  /-- ADD, SUB or MUL whose exact result is outside -2^31..2^31-1 (R144). Safe. -/
  | arithmeticOverflow (r : FaultRecord)
  /-- DIV of -2^31 by -1 (R143). Safe. -/
  | divideOverflow (r : FaultRecord)
  /-- The step's LENGTH_CHECK phase: the instruction's bytes run past `len` (R104). Safe. -/
  | truncatedInstruction (r : FaultRecord)
  deriving DecidableEq, Repr

/-- Why a step has no meaning. -/
inductive Refusal where
  /-- For an arm of `exec` that gives its instruction no meaning. Safe. No arm of this model uses it. -/
  | notModelled (mnemonic : String)
  deriving DecidableEq, Repr

/-- A byte memory: the listed (address, byte) pairs. Its canonical form is `Memory.wf` and what an unlisted address
reads as is `Memory.unlisted`, both in Sys2Proof/Machine/Ops.lean. -/
abbrev Memory := List Host.Cell

/-- The architectural state, the tuple of R20. Nothing else is state (R32, R33, R34). -/
structure State where
  /-- `x[0..31]`, the general registers (R21). -/
  x : Vector Word 32
  /-- The program counter: a byte offset into the buffer that never wraps (R24, R26). -/
  pc : Nat
  /-- The bytes of the program buffer, at the addresses below `len` (R31, R40). Log entry 4. -/
  buf : Memory
  /-- The number of bytes in the program buffer (R31). -/
  len : Nat
  /-- The remainder register (R28). -/
  rem : Word
  /-- The equal flag (R27). -/
  flag : Bool
  /-- The run state (R29). -/
  run : RunState
  /-- Whether a byte was appended since the core last halted (R30). -/
  armed : Bool
  deriving DecidableEq, Repr

/-- The state after reset (R35, R210, R211). -/
def State.reset : State :=
  { x := Vector.replicate 32 0, pc := 0, buf := [], len := 0, rem := 0, flag := false, run := .running, armed := false }

/-- What an instruction or a step answers. -/
abbrev Result := Host.Outcome State Fault Refusal

end Sys2Proof.Machine
end

