-- ==== Sys2Proof/Machine/Ops.lean ====
section
/-! DEFINITION. The operations every meaning is written in: the program buffer's bytes (20_memory.md), the register
file, the program counter, raising a RuntimeFault (60_exceptions.md R181 to R183), the commit of a step and the graceful
halt (40_cycle.md R104), and the jump-target check (43_halt_jumps.md R155).

There is no trap entry and no return from one to model (R187, R188): taking an exception is `raise`, which ends the step
with the fault record and no next state, so nothing is changed. -/

namespace Sys2Proof.Machine

/-! ### The program buffer -/

/-- What an unlisted address holds. Below `len` this is the byte 0 the host appended there; at or above `len` there is
no byte and nothing reads one. Log entry 4. -/
def Memory.unlisted : Byte := 0

/-- The canonical form: addresses strictly rising, and no entry equal to what an unlisted address holds. -/
abbrev Memory.wf (m : Memory) : Prop :=
  m.Pairwise (fun c d => c.1 < d.1) ∧ ∀ c ∈ m, c.2 ≠ Memory.unlisted

/-- The byte at an address. -/
def Memory.read : Memory → Nat → Byte
  | [], _ => Memory.unlisted
  | (b, w) :: t, a => if a = b then w else Memory.read t a

/-- An entry put in front, unless it says what an unlisted address holds anyway. -/
def Memory.cons (a : Nat) (v : Byte) (t : Memory) : Memory :=
  if v = Memory.unlisted then t else (a, v) :: t

/-- Write one byte, keeping the canonical form. Only the host's append uses it (R40, R53). -/
def Memory.write : Memory → Nat → Byte → Memory
  | [], a, v => Memory.cons a v []
  | (b, w) :: t, a, v =>
    if a < b then Memory.cons a v ((b, w) :: t)
    else if a = b then Memory.cons a v t
    else (b, w) :: Memory.write t a v

/-- Write bytes at successive addresses. -/
def Memory.writeBytes : Memory → Nat → List Byte → Memory
  | m, _, [] => m
  | m, a, v :: vs => Memory.writeBytes (Memory.write m a v) (a + 1) vs

/-- `buf[a]` (R9). -/
def State.byteAt (s : State) (a : Nat) : Byte := s.buf.read a

/-- At most `n` bytes of the buffer from offset `a` on: those below `len` (R41: no byte at or above `len` is read). -/
def State.window (s : State) : Nat → Nat → List Byte
  | 0, _ => []
  | n + 1, a => if a < s.len then s.byteAt a :: State.window s n (a + 1) else []

/-- Add bytes at the end of the buffer (R46); a non-empty append arms the core (R106). -/
def State.append (s : State) (bytes : List Byte) : State :=
  { s with
    buf := s.buf.writeBytes s.len bytes
    len := s.len + bytes.length
    armed := s.armed || !bytes.isEmpty }

/-- Lay bytes at `pc`, whatever stood there, and leave the core able to step (`State.withFetchWord`). Log entry 8. -/
def State.placeAtPc (s : State) (bytes : List Byte) : State :=
  { s with
    buf := s.buf.writeBytes s.pc bytes
    len := max s.len (s.pc + bytes.length)
    armed := s.armed || s.run == .halted }

/-! ### Registers -/

/-- `x[i]` read as a signed integer (R8, R9, R21). -/
def State.reg (s : State) (r : Reg) : Int := s32 (s.x.get r)

/-- `x[i] <- v` (R9). The value is in the signed 32-bit range wherever a meaning writes one (R8). -/
def State.setReg (s : State) (r : Reg) (v : Int) : State := { s with x := s.x.set r.val (word32 v) r.isLt }

/-- `rem <- w` (R9, R28). -/
def State.setRem (s : State) (w : Word) : State := { s with rem := w }

/-- `flag <- b` (R9, R27). -/
def State.setFlag (s : State) (b : Bool) : State := { s with flag := b }

/-! ### The end of a step -/

/-- `next = p + length(op)`: the offset after the instruction at `pc` (R104, R110). -/
def State.nextPc (s : State) (op : Opcode) : Nat := s.pc + op.length

/-- COMMIT without a halt (R104): `pc <- next`, `run <- Running`. -/
def State.complete (s : State) (next : Nat) : State := { s with pc := next, run := .running }

/-- A graceful halt (R104, R180): `run <- Halted`, `armed <- false`. -/
def State.halt (s : State) : State := { s with run := .halted, armed := false }

/-- COMMIT with a halt (R104): `pc <- next` and the graceful halt. -/
def State.completeHalted (s : State) (next : Nat) : State := { s with pc := next }.halt

/-- `raise Fault(kind, info)` (R9, R182, R183): the step's outcome is the fault, with no next state. -/
def raise (kind : FaultRecord → Fault) (op : Opcode) (operand : Option (Nat × Byte)) (s : State) : Result :=
  .fault (kind { opcode := encodeOpcode hwConfig op, pc := s.pc, operand := operand })

/-- `check_target(t)` (R155), for a jump whose register operand is `ra`: `pc <- t`, or the fault. -/
def checkTarget (op : Opcode) (ra : Reg) (t : Int) (s : State) : Result :=
  if t < 0 then raise .jumpBelowZero op (some (1, regByte ra)) s
  else if (s.len : Int) < t then raise .jumpBeyondEnd op (some (1, regByte ra)) s
  else .next (s.complete t.toNat)

/-! ### Fault codes -/

/-- The codes of R181. -/
def Fault.code : Fault → Nat
  | .divideByZero _ => 1
  | .registerIndexOutOfRange _ => 2
  | .jumpBelowZero _ => 3
  | .jumpBeyondEnd _ => 4
  | .negativeJumpDistance _ => 5
  | .arithmeticOverflow _ => 6
  | .divideOverflow _ => 7
  | .truncatedInstruction _ => 8

/-- The record a fault carries (R182). -/
def Fault.record : Fault → FaultRecord
  | .divideByZero r | .registerIndexOutOfRange r | .jumpBelowZero r | .jumpBeyondEnd r
  | .negativeJumpDistance r | .arithmeticOverflow r | .divideOverflow r | .truncatedInstruction r => r

end Sys2Proof.Machine
end

