-- ==== Sys2Proof/Machine/Operands.lean ====
section
/-! DEFINITION. The operand values and the number arithmetic of 00_scope.md R8: exact integers, checked for the signed
32-bit range before they are written. -/

namespace Sys2Proof.Machine

/-- `in_s32(n)` (R8): -2^31 <= n <= 2^31 - 1. -/
def inS32 (n : Int) : Bool := decide (-2147483648 ≤ n) && decide (n ≤ 2147483647)

/-- `zext_32(imm16)` as a signed register value, 0..65535 (R67, R130). -/
def immValue (v : Imm) : Int := s32 (v.zeroExtend 32)

/-- `tdiv(a, b)`: the quotient rounded toward zero (R8). -/
def tdiv (a b : Int) : Int := Int.tdiv a b

/-- `trem(a, b) = a - b * tdiv(a, b)` (R8). -/
def trem (a b : Int) : Int := a - b * tdiv a b

/-- The target of JMP and JMPE: an absolute offset, the register read as signed (R151, R154, R170). -/
def absoluteTarget (ra : Reg) (s : State) : Int := s.reg ra

/-- The target of JMPF: a distance forward from the end of the instruction (R152). -/
def forwardTarget (ra : Reg) (s : State) : Int := (s.nextPc .jmpf : Int) + s.reg ra

/-- The target of JMPB: a distance back from the end of the instruction (R153). -/
def backwardTarget (ra : Reg) (s : State) : Int := (s.nextPc .jmpb : Int) - s.reg ra

/-- ADD, SUB and MUL after their exact result `v` is computed (R140 to R142, R144): write it, or ArithmeticOverflow. -/
def writeChecked (op : Opcode) (rd : Reg) (v : Int) (s : State) : Result :=
  if inS32 v then .next ((s.setReg rd v).complete (s.nextPc op)) else raise .arithmeticOverflow op none s

end Sys2Proof.Machine
end

