-- ==== Sys2Proof/Machine/Arith.lean ====
section
/-! DEFINITION. ADD, SUB, MUL, DIV (42_arithmetic.md). Both sources are read before the destination is written (R146). -/

namespace Sys2Proof.Machine

/-- ADD (R140). -/
def execAdd (rs1 rs2 rd : Reg) (s : State) : Result := writeChecked .add rd (s.reg rs1 + s.reg rs2) s

/-- SUB (R141). -/
def execSub (rs1 rs2 rd : Reg) (s : State) : Result := writeChecked .sub rd (s.reg rs1 - s.reg rs2) s

/-- MUL (R142): no high half is kept and `rem` is not written. -/
def execMul (rs1 rs2 rd : Reg) (s : State) : Result := writeChecked .mul rd (s.reg rs1 * s.reg rs2) s

/-- DIV (R143, R145): truncating division; `rem` gets the bit pattern of the remainder. -/
def execDiv (rs1 rs2 rd : Reg) (s : State) : Result :=
  let a := s.reg rs1
  let d := s.reg rs2
  let divisor := some (hwConfig.divisorPos, regByte rs2)
  if d = 0 then raise .divideByZero .div divisor s
  else if inS32 (tdiv a d) then
    .next (((s.setReg rd (tdiv a d)).setRem (word32 (trem a d))).complete (s.nextPc .div))
  else raise .divideOverflow .div divisor s

end Sys2Proof.Machine
end

