-- ==== Sys2Proof/Machine/Flags.lean ====
section
/-! DEFINITION. The equal flag: the six signed relations (44_compare.md R161 to R166) and how a comparison writes its
result (R160). -/

namespace Sys2Proof.Machine

/-- R161. -/
def relEq (a b : Int) : Bool := decide (a = b)

/-- R162. -/
def relNeq (a b : Int) : Bool := decide (a ≠ b)

/-- R163. -/
def relGte (a b : Int) : Bool := decide (b ≤ a)

/-- R164. -/
def relLte (a b : Int) : Bool := decide (a ≤ b)

/-- R165. -/
def relLt (a b : Int) : Bool := decide (a < b)

/-- R166. -/
def relGt (a b : Int) : Bool := decide (b < a)

/-- A comparison (R160): the relation of x[rs1] and x[rs2], in that order, replaces the flag. -/
def compareWith (op : Opcode) (rel : Int → Int → Bool) (rs1 rs2 : Reg) (s : State) : Result :=
  .next ((s.setFlag (rel (s.reg rs1) (s.reg rs2))).complete (s.nextPc op))

end Sys2Proof.Machine
end

