-- ==== Sys2Proof/Machine/Compare.lean ====
section
/-! DEFINITION. EQ, NEQ, GTE, LTE, LT, GT (44_compare.md). The pad byte is consumed and has no effect (30_encoding.md R69). -/

namespace Sys2Proof.Machine

/-- EQ (R161). -/
def execEq (rs1 rs2 : Reg) (_pad : Byte) (s : State) : Result := compareWith .eq relEq rs1 rs2 s

/-- NEQ (R162). -/
def execNeq (rs1 rs2 : Reg) (_pad : Byte) (s : State) : Result := compareWith .neq relNeq rs1 rs2 s

/-- GTE (R163). -/
def execGte (rs1 rs2 : Reg) (_pad : Byte) (s : State) : Result := compareWith .gte relGte rs1 rs2 s

/-- LTE (R164). -/
def execLte (rs1 rs2 : Reg) (_pad : Byte) (s : State) : Result := compareWith .lte relLte rs1 rs2 s

/-- LT (R165). -/
def execLt (rs1 rs2 : Reg) (_pad : Byte) (s : State) : Result := compareWith .lt relLt rs1 rs2 s

/-- GT (R166). -/
def execGt (rs1 rs2 : Reg) (_pad : Byte) (s : State) : Result := compareWith .gt relGt rs1 rs2 s

end Sys2Proof.Machine
end

