-- ==== Sys2Proof/Machine/Halt.lean ====
section
/-! DEFINITION. HLT (43_halt_jumps.md R150) and ILLEGAL (46_illegal.md R175): graceful halts, which are next states and
not faults (60_exceptions.md R189). -/

namespace Sys2Proof.Machine

/-- HLT (R150): `pc <- p + 1`, halt(HltExecuted). -/
def execHlt (s : State) : Result := .next (s.completeHalted (s.nextPc .hlt))

/-- ILLEGAL (R175): `pc <- p + 1`, halt(IllegalOpcode(b0)). -/
def execIllegal (_b0 : Byte) (s : State) : Result := .next (s.completeHalted (s.nextPc .illegal))

end Sys2Proof.Machine
end

