-- ==== Sys2Proof/Machine/Jump.lean ====
section
/-! DEFINITION. JMP, JMPF, JMPB (43_halt_jumps.md) and JMPE (45_jmpe.md). -/

namespace Sys2Proof.Machine

/-- JMP (R151): `pc <- x[ra]`, checked. -/
def execJmp (ra : Reg) (s : State) : Result := checkTarget .jmp ra (absoluteTarget ra s) s

/-- JMPF (R152): a negative distance is checked before the target. -/
def execJmpf (ra : Reg) (s : State) : Result :=
  if s.reg ra < 0 then raise .negativeJumpDistance .jmpf (some (1, regByte ra)) s
  else checkTarget .jmpf ra (forwardTarget ra s) s

/-- JMPB (R153): a negative distance is checked before the target. -/
def execJmpb (ra : Reg) (s : State) : Result :=
  if s.reg ra < 0 then raise .negativeJumpDistance .jmpb (some (1, regByte ra)) s
  else checkTarget .jmpb ra (backwardTarget ra s) s

/-- JMPE (R170): taken when the equal flag is true; otherwise the next instruction, with no check of the target. -/
def execJmpe (ra : Reg) (s : State) : Result :=
  if s.flag then checkTarget .jmpe ra (absoluteTarget ra s) s else .next (s.complete (s.nextPc .jmpe))

end Sys2Proof.Machine
end

