-- ==== Sys2Proof/Machine/Load.lean ====
section
/-! DEFINITION. LOAD (41_load.md). -/

namespace Sys2Proof.Machine

/-- LOAD (R130): `x[rd] <- zext_32(imm16)`. -/
def execLoad (rd : Reg) (imm16 : Imm) (s : State) : Result :=
  .next ((s.setReg rd (immValue imm16)).complete (s.nextPc .load))

end Sys2Proof.Machine
end

