-- ==== Sys2Proof/Machine/Dispatch.lean ====
section
/-! DEFINITION. The dispatch of 40_cycle.md R105: one arm per opcode, ILLEGAL among them, and no wildcard. -/

namespace Sys2Proof.Machine

/-- EXECUTE and COMMIT of one decoded instruction (R104, R105). -/
def exec (i : Instr) (s : State) : Host.Outcome State Fault Refusal :=
  match i with
  | .load rd imm16 => Sys2Proof.Machine.execLoad rd imm16 s
  | .add rs1 rs2 rd => Sys2Proof.Machine.execAdd rs1 rs2 rd s
  | .sub rs1 rs2 rd => Sys2Proof.Machine.execSub rs1 rs2 rd s
  | .mul rs1 rs2 rd => Sys2Proof.Machine.execMul rs1 rs2 rd s
  | .div rs1 rs2 rd => Sys2Proof.Machine.execDiv rs1 rs2 rd s
  | .hlt => Sys2Proof.Machine.execHlt s
  | .jmp ra => Sys2Proof.Machine.execJmp ra s
  | .jmpf ra => Sys2Proof.Machine.execJmpf ra s
  | .jmpb ra => Sys2Proof.Machine.execJmpb ra s
  | .eq rs1 rs2 pad => Sys2Proof.Machine.execEq rs1 rs2 pad s
  | .neq rs1 rs2 pad => Sys2Proof.Machine.execNeq rs1 rs2 pad s
  | .gte rs1 rs2 pad => Sys2Proof.Machine.execGte rs1 rs2 pad s
  | .lte rs1 rs2 pad => Sys2Proof.Machine.execLte rs1 rs2 pad s
  | .lt rs1 rs2 pad => Sys2Proof.Machine.execLt rs1 rs2 pad s
  | .gt rs1 rs2 pad => Sys2Proof.Machine.execGt rs1 rs2 pad s
  | .jmpe ra => Sys2Proof.Machine.execJmpe ra s
  | .illegal b0 => Sys2Proof.Machine.execIllegal b0 s

end Sys2Proof.Machine
end

