-- ==== Sys2Proof/Machine/Fetch.lean ====
section
/-! DEFINITION. The phases of a step before EXECUTE (40_cycle.md R103, R104): RESUME_CHECK, END_CHECK, FETCH_OPCODE,
LENGTH_CHECK, FETCH_OPERANDS and VALIDATE, in the order of 60_exceptions.md R185. -/

namespace Sys2Proof.Machine

/-- How a step stands when these phases are over. -/
inductive Fetched where
  /-- RESUME_CHECK: the core is Halted and not armed (R112). -/
  | notResumed
  /-- END_CHECK: `pc >= len`. -/
  | endOfProgram
  /-- LENGTH_CHECK or VALIDATE raised a fault. -/
  | fault (f : Fault)
  /-- The instruction to execute. -/
  | instr (i : Instr)
  deriving DecidableEq, Repr

/-- The core is Halted and not armed: a step does nothing (R104, R112). -/
def State.blocked (s : State) : Bool := s.run == .halted && !s.armed

/-- What the decoder's answer on the bytes at `pc` means for the step. With no byte at `pc`, END_CHECK has ended the
step already. -/
def fetchedOf (pc : Nat) : Except DecodeError Instr → Fetched
  | .ok i => .instr i
  | .error .noBytes => .endOfProgram
  | .error (.truncated b0) => .fault (.truncatedInstruction { opcode := b0, pc := pc, operand := none })
  | .error (.badRegister b0 k b) => .fault (.registerIndexOutOfRange { opcode := b0, pc := pc, operand := some (k, b) })

/-- The phases of R104 up to VALIDATE. -/
def fetch (s : State) : Fetched :=
  if s.blocked then .notResumed
  else if s.len ≤ s.pc then .endOfProgram
  else fetchedOf s.pc (decode (s.window maxLength s.pc))

end Sys2Proof.Machine
end

