-- ==== Sys2Proof/Machine/Step.lean ====
section
/-! DEFINITION. One step (40_cycle.md R104). A step that halts, or finds the core Halted and not armed, is a next state;
its reason (R102) is what `stepCommand` in Sys2Proof/Machine/HostCommands.lean reports beside it. Log entry 7. -/

namespace Sys2Proof.Machine

/-- `step()` (R104). -/
def step (s : State) : Host.Outcome State Fault Refusal :=
  match fetch s with
  | .notResumed => .next s
  | .endOfProgram => .next s.halt
  | .fault f => .fault f
  | .instr i => exec i s

/-- The instruction whose bits are `w`, laid where the next step fetches. It stands for the host's append of a program
(R106, R214). Log entry 8. -/
def State.withFetchWord (s : State) (nbits w : Nat) : State := s.placeAtPc (tableBytes nbits w)

end Sys2Proof.Machine
end

