-- ==== Sys2Proof/Machine/Encoder.lean ====
section
/-! DEFINITION. The producer side of the wire contract: the instruction encoder of 30_encoding.md R75 to R82. It is
software outside the core: it reads and writes no state of the machine (R81). -/

namespace Sys2Proof.Machine

/-- An Operand Token (R76). The types admit registers 0..31 and immediates 0..65535 only (R80). -/
inductive Token where
  | opcode (op : Opcode)
  | register (r : Reg)
  | immediate (v : Imm)
  deriving DecidableEq, Repr

/-- A register token, if the value is in range (R76). -/
def registerToken (n : Nat) : Option Token :=
  if h : n < 32 then some (.register ⟨n, h⟩) else none

/-- An immediate token, if the value is in range: one above 65535 is refused, never truncated (R80). -/
def immediateToken (n : Nat) : Option Token :=
  if n < 65536 then some (.immediate (BitVec.ofNat 16 n)) else none

/-- A Parsed Instruction (R75). The label is reserved and never read. -/
structure ParsedInstr where
  opcodeSlot : Token
  operand1 : Option Token
  operand2 : Option Token
  operand3 : Option Token
  label : Option (List Char)
  deriving DecidableEq, Repr

/-- EncodingFault (R78, R79). -/
inductive EncodingFault where
  | badOpcodeSlot
  | badOperandSlot
  deriving DecidableEq, Repr

/-- The bytes of one operand slot (R77, R79). -/
def encodeSlot : Option Token → Except EncodingFault (List Byte)
  | none => .ok []
  | some (.register r) => .ok [regByte r]
  | some (.immediate v) => .ok [immHi v, immLo v]
  | some (.opcode _) => .error .badOperandSlot

/-- The encoder (R77): the opcode's byte, then operand1, operand2, operand3 in that order. -/
def encodeParsed (c : Config) (p : ParsedInstr) : Except EncodingFault (List Byte) :=
  match p.opcodeSlot with
  | .opcode op =>
    match encodeSlot p.operand1, encodeSlot p.operand2, encodeSlot p.operand3 with
    | .ok b1, .ok b2, .ok b3 => .ok (encodeOpcode c op :: (b1 ++ b2 ++ b3))
    | _, _, _ => .error .badOperandSlot
  | .register _ | .immediate _ => .error .badOpcodeSlot

/-- The Parsed Instruction of an instruction with three register-byte operands, in byte order (R72, R82). -/
def parsedFRRR (c : Config) (op : Opcode) (rs1 rs2 rd : Reg) : ParsedInstr :=
  match c.arithDestPos with
  | .last => ⟨.opcode op, some (.register rs1), some (.register rs2), some (.register rd), none⟩
  | .first => ⟨.opcode op, some (.register rd), some (.register rs1), some (.register rs2), none⟩

/-- The Parsed Instruction of a comparison, if its pad byte is a register index (R82). -/
def parsedFRRX (op : Opcode) (rs1 rs2 : Reg) (pad : Byte) : Option ParsedInstr :=
  match regOfByte pad with
  | some r => some ⟨.opcode op, some (.register rs1), some (.register rs2), some (.register r), none⟩
  | none => none

/-- The Parsed Instruction of a one-register instruction (R82). -/
def parsedFR (op : Opcode) (ra : Reg) : ParsedInstr := ⟨.opcode op, some (.register ra), none, none, none⟩

/-- The Parsed Instruction that carries exactly the operand tokens of R82's signature table. -/
def parsedOf (c : Config) : Instr → Option ParsedInstr
  | .load rd v => some ⟨.opcode .load, some (.register rd), some (.immediate v), none, none⟩
  | .add rs1 rs2 rd => some (parsedFRRR c .add rs1 rs2 rd)
  | .sub rs1 rs2 rd => some (parsedFRRR c .sub rs1 rs2 rd)
  | .mul rs1 rs2 rd => some (parsedFRRR c .mul rs1 rs2 rd)
  | .div rs1 rs2 rd => some (parsedFRRR c .div rs1 rs2 rd)
  | .hlt => some ⟨.opcode .hlt, none, none, none, none⟩
  | .jmp ra => some (parsedFR .jmp ra)
  | .jmpf ra => some (parsedFR .jmpf ra)
  | .jmpb ra => some (parsedFR .jmpb ra)
  | .eq rs1 rs2 pad => parsedFRRX .eq rs1 rs2 pad
  | .neq rs1 rs2 pad => parsedFRRX .neq rs1 rs2 pad
  | .gte rs1 rs2 pad => parsedFRRX .gte rs1 rs2 pad
  | .lte rs1 rs2 pad => parsedFRRX .lte rs1 rs2 pad
  | .lt rs1 rs2 pad => parsedFRRX .lt rs1 rs2 pad
  | .gt rs1 rs2 pad => parsedFRRX .gt rs1 rs2 pad
  | .jmpe ra => some (parsedFR .jmpe ra)
  | .illegal _ => some ⟨.opcode .illegal, none, none, none, none⟩

end Sys2Proof.Machine
end

