-- ==== Sys2Proof/Machine/Assembler.lean ====
section
/-! DEFINITION. The producer side of the wire contract: the assembler syntax of 30_encoding.md R83 to R91, one line to one
Parsed Instruction. It is software outside the core; a ParseFault emits no bytes and touches no state (R88).
Text is a list of characters, so that the kernel can evaluate it. -/

namespace Sys2Proof.Machine

/-- ParseFault (R88). -/
inductive ParseFault where
  /-- No form of R86 consumes the whole line (R83, R85, R86). -/
  | unparsable
  /-- The operands do not match the opcode's row (R87). -/
  | badSignature
  deriving DecidableEq, Repr

/-! ### Lexing -/

/-- A space or a tab (R83). -/
def isBlank (ch : Char) : Bool := ch == ' ' || ch == '\t'

/-- A run of characters as a list of at most one word. -/
def flushWord (cur : List Char) : List (List Char) := if cur = [] then [] else [cur]

/-- The words of a line after the characters `cur` of a word already begun. -/
def wordsFrom : List Char → List Char → List (List Char)
  | cur, [] => flushWord cur
  | cur, ch :: rest => if isBlank ch then flushWord cur ++ wordsFrom [] rest else wordsFrom (cur ++ [ch]) rest

/-- The words of a line: its maximal runs of characters that are not blank (R83, R84). -/
def lineWords (line : List Char) : List (List Char) := wordsFrom [] line

/-- The value of a decimal digit (R85). -/
def digitValue (ch : Char) : Option Nat :=
  if 48 ≤ ch.toNat ∧ ch.toNat ≤ 57 then some (ch.toNat - 48) else none

/-- Decimal digits after a number already read. -/
def decimalFrom : Nat → List Char → Option Nat
  | acc, [] => some acc
  | acc, ch :: rest =>
    match digitValue ch with
    | some d => decimalFrom (10 * acc + d) rest
    | none => none

/-- One or more decimal digits, leading zeros allowed (R85). -/
def decimal : List Char → Option Nat
  | [] => none
  | ch :: rest => decimalFrom 0 (ch :: rest)

/-- An operand token: a register or an immediate with its sigil (R85). -/
def operandToken : List Char → Option Token
  | '$' :: digits => (decimal digits).bind registerToken
  | '#' :: digits => (decimal digits).bind immediateToken
  | _ => none

/-- The operand tokens of the words after the mnemonic. -/
def operandTokens : List (List Char) → Option (List Token)
  | [] => some []
  | w :: ws =>
    match operandToken w, operandTokens ws with
    | some t, some ts => some (t :: ts)
    | _, _ => none

/-! ### Mnemonics -/

/-- The mnemonics (R84): the lowercase of each tag. -/
def mnemonicTable : List (Opcode × List Char) :=
  [(.load, ['l', 'o', 'a', 'd']), (.add, ['a', 'd', 'd']), (.sub, ['s', 'u', 'b']), (.mul, ['m', 'u', 'l']),
   (.div, ['d', 'i', 'v']), (.hlt, ['h', 'l', 't']), (.jmp, ['j', 'm', 'p']), (.jmpf, ['j', 'm', 'p', 'f']),
   (.jmpb, ['j', 'm', 'p', 'b']), (.eq, ['e', 'q']), (.neq, ['n', 'e', 'q']), (.gte, ['g', 't', 'e']),
   (.lte, ['l', 't', 'e']), (.lt, ['l', 't']), (.gt, ['g', 't']), (.jmpe, ['j', 'm', 'p', 'e'])]

/-- The row of a mnemonic, if it has one. -/
def mnemonicIn : List (Opcode × List Char) → List Char → Option Opcode
  | [], _ => none
  | (op, m) :: rows, w => if w = m then some op else mnemonicIn rows w

/-- `lookup_mnemonic` (R84): any other string is ILLEGAL. -/
def lookupMnemonic (w : List Char) : Opcode := (mnemonicIn mnemonicTable w).getD .illegal

/-! ### Forms and signatures -/

/-- The five operand shapes (R86). -/
inductive Form where
  | three3 (a b c : Reg)
  | three2 (a b : Reg)
  | two (r : Reg) (v : Imm)
  | jump (a : Reg)
  | one
  deriving DecidableEq, Repr

/-- The shape of a line's operands (R86). The five shapes exclude each other on a whole line, so trying them from the
longest to the shortest is this one match. -/
def formOf : List Token → Option Form
  | [.register a, .register b, .register c] => some (.three3 a b c)
  | [.register a, .register b] => some (.three2 a b)
  | [.register r, .immediate v] => some (.two r v)
  | [.register a] => some (.jump a)
  | [] => some .one
  | _ => none

/-- The Parsed Instruction, if the opcode has the format the operands have (R87). -/
def signed (op : Opcode) (fmt : Format) (p : ParsedInstr) : Except ParseFault ParsedInstr :=
  if op.format = fmt then .ok p else .error .badSignature

/-- The signature check (R87) and the pad operand of a comparison (R89): the Parsed Instruction, with no label (R90). -/
def checkSignature (op : Opcode) : Form → Except ParseFault ParsedInstr
  | .two r v => signed op .fri ⟨.opcode op, some (.register r), some (.immediate v), none, none⟩
  | .three3 a b c => signed op .frrr ⟨.opcode op, some (.register a), some (.register b), some (.register c), none⟩
  | .three2 a b => signed op .frrx ⟨.opcode op, some (.register a), some (.register b), some (.register 0), none⟩
  | .jump a => signed op .fr ⟨.opcode op, some (.register a), none, none, none⟩
  | .one => signed op .f0 ⟨.opcode op, none, none, none, none⟩

/-- The operands of a line of more than three operand words are unparsable (R83). -/
def lineForm (operands : List (List Char)) : Option Form :=
  if 3 < operands.length then none else (operandTokens operands).bind formOf

/-- One line to one Parsed Instruction (R83 to R90). -/
def parseLine (line : List Char) : Except ParseFault ParsedInstr :=
  match lineWords line with
  | [] => .error .unparsable
  | m :: operands =>
    match lineForm operands with
    | none => .error .unparsable
    | some f => checkSignature (lookupMnemonic m) f

/-- Why a line gives no bytes: a fault of the assembler or of the encoder (R190). -/
inductive AssemblyFault where
  | parse (f : ParseFault)
  | encoding (f : EncodingFault)
  deriving DecidableEq, Repr

/-- The bytes of a line. -/
def assembleLine (c : Config) (line : List Char) : Except AssemblyFault (List Byte) :=
  match parseLine line with
  | .error f => .error (.parse f)
  | .ok p =>
    match encodeParsed c p with
    | .error f => .error (.encoding f)
    | .ok bytes => .ok bytes

/-! ### Canonical spelling -/

/-- The character of a decimal digit. -/
def digitChar (d : Nat) : Char := Char.ofNat (48 + d)

/-- A number of at most `fuel` decimal digits, without leading zeros. -/
def decimalChars : Nat → Nat → List Char
  | 0, _ => []
  | fuel + 1, n => if n < 10 then [digitChar n] else decimalChars fuel (n / 10) ++ [digitChar (n % 10)]

/-- `$r` (R85). -/
def spellReg (r : Reg) : List Char := '$' :: decimalChars 2 r.val

/-- `#v` (R85). -/
def spellImm (v : Imm) : List Char := '#' :: decimalChars 5 v.toNat

/-- The mnemonic of an opcode in a table. -/
def mnemonicOf : List (Opcode × List Char) → Opcode → List Char
  | [], _ => []
  | (o, m) :: rows, op => if op = o then m else mnemonicOf rows op

/-- A mnemonic and its operands, one space before each operand. -/
def spellLine (op : Opcode) (operands : List (List Char)) : List Char :=
  mnemonicOf mnemonicTable op ++ operands.flatMap (fun w => ' ' :: w)

/-- An arithmetic instruction, its registers in byte order (R72, R91). -/
def spellFRRR (c : Config) (op : Opcode) (rs1 rs2 rd : Reg) : List Char :=
  match c.arithDestPos with
  | .last => spellLine op [spellReg rs1, spellReg rs2, spellReg rd]
  | .first => spellLine op [spellReg rd, spellReg rs1, spellReg rs2]

/-- An upper-case hexadecimal digit. -/
def hexChar (d : Nat) : Char := if d < 10 then Char.ofNat (48 + d) else Char.ofNat (55 + d)

/-- The canonical spelling of a decoded instruction (R91). A pad byte is not spelled. -/
def spell (c : Config) : Instr → List Char
  | .load rd v => spellLine .load [spellReg rd, spellImm v]
  | .add rs1 rs2 rd => spellFRRR c .add rs1 rs2 rd
  | .sub rs1 rs2 rd => spellFRRR c .sub rs1 rs2 rd
  | .mul rs1 rs2 rd => spellFRRR c .mul rs1 rs2 rd
  | .div rs1 rs2 rd => spellFRRR c .div rs1 rs2 rd
  | .hlt => spellLine .hlt []
  | .jmp ra => spellLine .jmp [spellReg ra]
  | .jmpf ra => spellLine .jmpf [spellReg ra]
  | .jmpb ra => spellLine .jmpb [spellReg ra]
  | .eq rs1 rs2 _ => spellLine .eq [spellReg rs1, spellReg rs2]
  | .neq rs1 rs2 _ => spellLine .neq [spellReg rs1, spellReg rs2]
  | .gte rs1 rs2 _ => spellLine .gte [spellReg rs1, spellReg rs2]
  | .lte rs1 rs2 _ => spellLine .lte [spellReg rs1, spellReg rs2]
  | .lt rs1 rs2 _ => spellLine .lt [spellReg rs1, spellReg rs2]
  | .gt rs1 rs2 _ => spellLine .gt [spellReg rs1, spellReg rs2]
  | .jmpe ra => spellLine .jmpe [spellReg ra]
  | .illegal b0 =>
    ['.', 'i', 'l', 'l', 'e', 'g', 'a', 'l', ' ', '0', 'x', hexChar (b0.toNat / 16), hexChar (b0.toNat % 16)]

end Sys2Proof.Machine
end

