-- ==== Sys2Proof/Machine/HostCommands.lean ====
section
/-! DEFINITION. The host's command surface (40_cycle.md R101): `step()` with its outcome (R102), `runToHalt()` (R108),
`appendBytes(s)` (R106) and the reads (R107). -/

namespace Sys2Proof.Machine

/-! ### step() and its outcome -/

/-- The reasons of a Halted outcome (R102). -/
inductive HaltReason where
  | endOfProgram
  | hltExecuted
  | illegalOpcode (b0 : Byte)
  | notResumed
  deriving DecidableEq, Repr

/-- The outcome of a step (R102). -/
inductive StepOutcome where
  | running
  | halted (r : HaltReason)
  | fault (f : Fault)
  /-- Not in R102: no instruction of this model is refused. It makes the report total. -/
  | refused (r : Refusal)
  deriving DecidableEq, Repr

/-- The halt an instruction ends in, if it ends in one (R150, R175). -/
def haltReason : Instr → Option HaltReason
  | .hlt => some .hltExecuted
  | .illegal b0 => some (.illegalOpcode b0)
  | .load _ _ | .add _ _ _ | .sub _ _ _ | .mul _ _ _ | .div _ _ _ | .jmp _ | .jmpf _ | .jmpb _
  | .eq _ _ _ | .neq _ _ _ | .gte _ _ _ | .lte _ _ _ | .lt _ _ _ | .gt _ _ _ | .jmpe _ => none

/-- The outcome of an instruction that completes (R104 COMMIT). -/
def completedOutcome (i : Instr) : StepOutcome :=
  match haltReason i with
  | some r => .halted r
  | none => .running

/-- EXECUTE and COMMIT as the host sees them: the outcome and the state after it. A fault leaves the state (R183). -/
def execCommand (i : Instr) (s : State) : StepOutcome × State :=
  match exec i s with
  | .next t => (completedOutcome i, t)
  | .fault f => (.fault f, s)
  | .refused r => (.refused r, s)

/-- `step()` as the host sees it: its outcome (R102) and the state after it (R104). -/
def stepCommand (s : State) : StepOutcome × State :=
  match fetch s with
  | .notResumed => (.halted .notResumed, s)
  | .endOfProgram => (.halted .endOfProgram, s.halt)
  | .fault f => (.fault f, s)
  | .instr i => execCommand i s

/-! ### runToHalt() -/

/-- `runToHalt()` (R108) under fuel (R116): the first outcome that is not Running, or none when `fuel` steps were all
Running, with the state reached. Log entry 9. -/
def runToHalt : Nat → State → Option StepOutcome × State
  | 0, s => (none, s)
  | fuel + 1, s =>
    match stepCommand s with
    | (.running, t) => runToHalt fuel t
    | (o, t) => (some o, t)

/-! ### appendBytes(s) -/

/-- AppendFault (R197). -/
inductive AppendFault where
  | capacityExceeded
  deriving DecidableEq, Repr

/-- `appendBytes(s)` (R106) for a buffer of capacity `cap` (R47). -/
def appendBytesWithin (cap : Nat) (s : State) (bytes : List Byte) : Except AppendFault State :=
  if cap < s.len + bytes.length then .error .capacityExceeded else .ok (s.append bytes)

/-- `appendBytes(s)` of the machine, whose capacity is the open `PROG_CAP`. Log entry 3. -/
def appendBytes (s : State) (bytes : List Byte) : Except AppendFault State :=
  appendBytesWithin Config.progCap s bytes

/-! ### Reads -/

/-- What the host may read between commands (R107). -/
inductive HostRead where
  | reg (r : Reg)
  | pc
  | rem
  | flag
  | run
  | len
  deriving DecidableEq, Repr

/-- The value of a read. -/
inductive HostValue where
  | signed (v : Int)
  | unsigned (v : Nat)
  | bit (b : Bool)
  | state (r : RunState)
  deriving DecidableEq, Repr

/-- A read returns the committed value (R107). -/
def hostRead (q : HostRead) (s : State) : HostValue :=
  match q with
  | .reg r => .signed (s.reg r)
  | .pc => .unsigned s.pc
  | .rem => .unsigned (u32 s.rem)
  | .flag => .bit s.flag
  | .run => .state s.run
  | .len => .unsigned s.len

/-! ### A command of any kind -/

/-- The host's commands (R101). `runToHalt` carries the fuel that bounds it. -/
inductive Command where
  | step
  | runToHalt (fuel : Nat)
  | appendBytes (bytes : List Byte)
  | read (q : HostRead)
  deriving DecidableEq, Repr

/-- What a command returns to the host. -/
inductive Reply where
  | outcome (o : StepOutcome)
  /-- The fuel ended before the run did: the command has not completed and the host has no return from it (R116). The
  bound and this answer are the model's own, log entry 9. -/
  | stillRunning
  | appended
  | appendFault (f : AppendFault)
  | value (v : HostValue)
  deriving DecidableEq, Repr

/-- One host command: what it returns and the state after it (R101), for a buffer of capacity `cap`. -/
def command (cap : Nat) (c : Command) (s : State) : Reply × State :=
  match c with
  | .step => (.outcome (stepCommand s).1, (stepCommand s).2)
  | .runToHalt fuel =>
    match runToHalt fuel s with
    | (some o, t) => (.outcome o, t)
    | (none, t) => (.stillRunning, t)
  | .appendBytes bytes =>
    match appendBytesWithin cap s bytes with
    | .ok t => (.appended, t)
    | .error f => (.appendFault f, s)
  | .read q => (.value (hostRead q s), s)

/-- A session (R111): commands in order, each on the state the one before it left, with their replies in order. Each
command runs to completion before the next begins (R100), so a `runToHalt` whose fuel ended is the last command of its
session: no later command begins, and the state is the one its run had reached (DESIGN CHOICE: log entry 9). -/
def session (cap : Nat) : List Command → State → List Reply × State
  | [], s => ([], s)
  | c :: cs, s =>
    match command cap c s with
    | (.stillRunning, t) => ([.stillRunning], t)
    | (r, t) => (r :: (session cap cs t).1, (session cap cs t).2)

end Sys2Proof.Machine
end

