-- ==== Sys2Proof/Safety.lean ====
section
/-! DEFINITION. The invariants of the machine and what counts as a successful run (10_state.md R25; 20_memory.md R47;
70_reset_and_hazards.md R218). -/

namespace Sys2Proof.Machine

/-- The buffer is in its canonical form and lists no address at or above `len` (R31, R40). -/
abbrev State.BufOk (s : State) : Prop := s.buf.wf ∧ ∀ c ∈ s.buf, c.1 < s.len

/-- The invariant of every reachable state, for a buffer of capacity `cap`: R25 (`pc <= len`), R47 (`len <= PROG_CAP`)
and the buffer's canonical form. -/
abbrev State.Inv (cap : Nat) (s : State) : Prop := s.pc ≤ s.len ∧ s.len ≤ cap ∧ s.BufOk

/-- A run ended successfully: its outcome is a graceful halt and no fault (R189, R218). -/
def StepOutcome.graceful : StepOutcome → Bool
  | .halted _ => true
  | .running | .fault _ | .refused _ => false

/-- `runToHalt` from `s` ends within `fuel` steps in a graceful halt (R218). -/
def State.runsToGracefulHalt (fuel : Nat) (s : State) : Bool :=
  match (runToHalt fuel s).1 with
  | some o => o.graceful
  | none => false

end Sys2Proof.Machine
end

