-- ==== Sys2Proof/Certificates/Slice0/Obligations.lean ====
section
/-! DEFINITION. The statements about the machine, for the provers. Each docstring names the rule of spec/ it formalises.
Opcode bytes written as numbers are those of the default OPCODE_MAP (30_encoding.md R63, decision D1, log entry 1), and
the arithmetic operand order is ARITH_DEST_POS = 3 (R72, decision D2, log entry 2), unless a statement is about every
lawful `Config`. Fault records have the layout of 60_exceptions.md R182 (decision D11). -/

open Sys2Proof Sys2Proof.Machine

namespace Sys2Proof.Claims

/-! ### Words the statements are written in -/

/-- `in_s32(n)` of 00_scope.md R8. -/
def InRange (n : Int) : Prop := -2147483648 ≤ n ∧ n ≤ 2147483647

/-- Every general register reads as before. -/
def RegsKept (s t : State) : Prop := ∀ r : Reg, t.reg r = s.reg r

/-- Every general register but `rd` reads as before. -/
def RegsKeptBut (rd : Reg) (s t : State) : Prop := ∀ r : Reg, r ≠ rd → t.reg r = s.reg r

/-- The buffer has the same length and every byte of it reads as before. -/
def BufKept (s t : State) : Prop := t.len = s.len ∧ ∀ a, t.byteAt a = s.byteAt a

/-- The instruction completed without a halt and left `pc` at `next` (R104 COMMIT): `run` is Running, `armed` and the
buffer are as before. -/
def Advances (s t : State) (next : Nat) : Prop :=
  t.pc = next ∧ t.run = .running ∧ t.armed = s.armed ∧ BufKept s t

/-- The step halted gracefully and left `pc` at `next` (R104 COMMIT). The buffer is as before. -/
def Halts (s t : State) (next : Nat) : Prop :=
  t.pc = next ∧ t.run = .halted ∧ t.armed = false ∧ BufKept s t

/-- RESUME_CHECK and END_CHECK of R104 let the step go on: the core is not both Halted and unarmed, and a byte stands at
`pc`. -/
def Ready (s : State) : Prop := ¬(s.run = .halted ∧ s.armed = false) ∧ s.pc < s.len

/-- Byte `k` of the instruction at `pc` (R7). -/
def byte (s : State) (k : Nat) : Byte := s.byteAt (s.pc + k)

/-- The instruction is a jump that is taken in state `s`. -/
def JumpTaken (i : Instr) (s : State) : Prop :=
  (∃ ra, i = .jmp ra) ∨ (∃ ra, i = .jmpf ra) ∨ (∃ ra, i = .jmpb ra) ∨ ((∃ ra, i = .jmpe ra) ∧ s.flag = true)

/-- The instruction is one of the six comparisons. -/
def IsComparison (i : Instr) : Prop :=
  ∃ rs1 rs2 pad, i = .eq rs1 rs2 pad ∨ i = .neq rs1 rs2 pad ∨ i = .gte rs1 rs2 pad ∨ i = .lte rs1 rs2 pad ∨
    i = .lt rs1 rs2 pad ∨ i = .gt rs1 rs2 pad

/-- The register an instruction writes, by the table of 10_state.md R23. -/
def destReg : Instr → Option Reg
  | .load rd _ => some rd
  | .add _ _ rd => some rd
  | .sub _ _ rd => some rd
  | .mul _ _ rd => some rd
  | .div _ _ rd => some rd
  | .eq _ _ _ | .neq _ _ _ | .gte _ _ _ | .lte _ _ _ | .lt _ _ _ | .gt _ _ _ => none
  | .jmp _ | .jmpf _ | .jmpb _ | .jmpe _ | .hlt | .illegal _ => none

/-- The registers an instruction reads, by the table of 10_state.md R23. -/
def sourceRegs : Instr → List Reg
  | .load _ _ => []
  | .add rs1 rs2 _ => [rs1, rs2]
  | .sub rs1 rs2 _ => [rs1, rs2]
  | .mul rs1 rs2 _ => [rs1, rs2]
  | .div rs1 rs2 _ => [rs1, rs2]
  | .eq rs1 rs2 _ => [rs1, rs2]
  | .neq rs1 rs2 _ => [rs1, rs2]
  | .gte rs1 rs2 _ => [rs1, rs2]
  | .lte rs1 rs2 _ => [rs1, rs2]
  | .lt rs1 rs2 _ => [rs1, rs2]
  | .gt rs1 rs2 _ => [rs1, rs2]
  | .jmp ra => [ra]
  | .jmpf ra => [ra]
  | .jmpb ra => [ra]
  | .jmpe ra => [ra]
  | .hlt | .illegal _ => []

/-- The bytes R77 gives an operand slot: one byte for a register, two for an immediate, high byte first. -/
def slotBytes : Option Token → List Byte
  | none => []
  | some (.register r) => [BitVec.ofNat 8 r.val]
  | some (.immediate v) => [BitVec.ofNat 8 (v.toNat / 256), BitVec.ofNat 8 (v.toNat % 256)]
  | some (.opcode _) => []

/-- The slot holds no Opcode-reference token. -/
def OperandSlot (o : Option Token) : Prop := ∀ op, o ≠ some (.opcode op)

/-- `n` steps from `s`, all with outcome Running, lead to `t`. -/
def RunningSteps : Nat → State → State → Prop
  | 0, s, t => s = t
  | n + 1, s, t => ∃ u, stepCommand s = (.running, u) ∧ RunningSteps n u t

/-! ### Shapes shared by the whole-instruction statements -/

/-- An instruction of opcode byte `code` and length `n` whose bytes run past `len` (R104 LENGTH_CHECK). -/
def Truncates (code : Byte) (n : Nat) : Prop :=
  ∀ s : State, Ready s → byte s 0 = code → s.len < s.pc + n →
    step s = .fault (.truncatedInstruction ⟨code, s.pc, none⟩)

/-- The first register byte above 31 is reported, before anything is executed (R104 VALIDATE). -/
def RejectsRegisters (code : Byte) (n : Nat) (positions : List Nat) : Prop :=
  ∀ s : State, Ready s → byte s 0 = code → s.pc + n ≤ s.len →
    ∀ k ∈ positions, 31 < (byte s k).toNat → (∀ j ∈ positions, j < k → (byte s j).toNat ≤ 31) →
      step s = .fault (.registerIndexOutOfRange ⟨code, s.pc, some (k, byte s k)⟩)

/-- ADD, SUB or MUL as its rule gives it (R140, R141, R142): encoding, exact result, overflow fault, other faults, and
what stays as it was. -/
def ArithmeticRule (code : Byte) (mk : Reg → Reg → Reg → Instr) (f : Int → Int → Int) : Prop :=
  Truncates code 4 ∧ RejectsRegisters code 4 [1, 2, 3] ∧
  ∀ (s : State) (rs1 rs2 rd : Reg), Ready s → s.pc + 4 ≤ s.len → byte s 0 = code →
    (byte s 1).toNat = rs1.val → (byte s 2).toNat = rs2.val → (byte s 3).toNat = rd.val →
    (InRange (f (s.reg rs1) (s.reg rs2)) →
      ∃ t, step s = .next t ∧ exec (mk rs1 rs2 rd) s = .next t ∧ t.reg rd = f (s.reg rs1) (s.reg rs2) ∧
        RegsKeptBut rd s t ∧ t.flag = s.flag ∧ t.rem = s.rem ∧ Advances s t (s.pc + 4)) ∧
    (¬ InRange (f (s.reg rs1) (s.reg rs2)) →
      step s = .fault (.arithmeticOverflow ⟨code, s.pc, none⟩))

/-- A comparison as its rule gives it (R161 to R166): encoding, the flag, its two faults, and what stays as it was. -/
def ComparisonRule (code : Byte) (mk : Reg → Reg → Byte → Instr) (rel : Int → Int → Prop) : Prop :=
  Truncates code 4 ∧ RejectsRegisters code 4 [1, 2] ∧
  ∀ (s : State) (rs1 rs2 : Reg), Ready s → s.pc + 4 ≤ s.len → byte s 0 = code →
    (byte s 1).toNat = rs1.val → (byte s 2).toNat = rs2.val →
    ∃ t, step s = .next t ∧ exec (mk rs1 rs2 (byte s 3)) s = .next t ∧
      (t.flag = true ↔ rel (s.reg rs1) (s.reg rs2)) ∧
      RegsKept s t ∧ t.rem = s.rem ∧ Advances s t (s.pc + 4)

/-- A comparison executed (R160): the flag is the relation's result, and nothing but flag, pc and run changes. -/
def ComparisonSetsFlag (i : Instr) (s : State) (holds : Prop) : Prop :=
  ∃ t, exec i s = .next t ∧ (t.flag = true ↔ holds) ∧ RegsKept s t ∧ t.rem = s.rem ∧ Advances s t (s.pc + 4)

/-- A jump taken to offset `target`: nothing but pc and run changes. -/
def JumpsTo (i : Instr) (s : State) (target : Int) : Prop :=
  ∃ t, exec i s = .next t ∧ (t.pc : Int) = target ∧ t.run = .running ∧ t.armed = s.armed ∧ BufKept s t ∧
    RegsKept s t ∧ t.flag = s.flag ∧ t.rem = s.rem

/-- Two answers that are the same but for the flag after it, which is the same too where `writes` holds. -/
def SameButFlag (writes : Prop) : Result → Result → Prop
  | .next t, .next u => u = { t with flag := u.flag } ∧ (writes → u.flag = t.flag)
  | .fault f, .fault g => f = g
  | .refused r, .refused q => r = q
  | .next _, .fault _ | .next _, .refused _ | .fault _, .next _ | .fault _, .refused _
  | .refused _, .next _ | .refused _, .fault _ => False

/-- Two answers that are the same but for `rem` after it: the same too where `writes` holds, and `w` otherwise. -/
def SameButRem (writes : Prop) (w : Word) : Result → Result → Prop
  | .next t, .next u => u = { t with rem := u.rem } ∧ (writes → u.rem = t.rem) ∧ (¬ writes → u.rem = w)
  | .fault f, .fault g => f = g
  | .refused r, .refused q => r = q
  | .next _, .fault _ | .next _, .refused _ | .fault _, .next _ | .fault _, .refused _
  | .refused _, .next _ | .refused _, .fault _ => False

/-- Two answers of instruction `i` that are the same but for registers `i` does not write. -/
def SameButOtherRegs (i : Instr) : Result → Result → Prop
  | .next t, .next u => u = { t with x := u.x } ∧ ∀ r, destReg i = some r → u.reg r = t.reg r
  | .fault f, .fault g => f = g
  | .refused r, .refused q => r = q
  | .next _, .fault _ | .next _, .refused _ | .fault _, .next _ | .fault _, .refused _
  | .refused _, .next _ | .refused _, .fault _ => False

end Sys2Proof.Claims

open Sys2Proof.Claims

/-! ### Encoding -/

/-- Words written out from R62 and R63 decode to the instructions they stand for (95_test_vectors.md). -/
def Obligations.SpecWordsDecode : Prop :=
  decode [0x00, 0x00, 0x00, 0x64] = .ok (.load 0 100) ∧
  decode [0x01, 0x00, 0x01, 0x02] = .ok (.add 0 1 2) ∧
  decode [0x04, 0x00, 0x01, 0x02] = .ok (.div 0 1 2) ∧
  decode [0x05] = .ok .hlt ∧
  decode [0x08, 0x02] = .ok (.jmpb 2) ∧
  decode [0x0E, 0x03, 0x04, 0x00] = .ok (.gt 3 4 0) ∧
  decode [0x0F, 0x03] = .ok (.jmpe 3) ∧
  decode [0xC8] = .ok (.illegal 0xC8) ∧
  decode [0x10, 0x00] = .ok (.illegal 0x10)

/-- R64: decode of an opcode byte is total: the opcode the map gives a byte in 0..15, ILLEGAL for every other byte. -/
def Obligations.OpcodeByteDecodesTotally : Prop :=
  ∀ c : Config, c.Lawful → ∀ b : Byte,
    (∀ h : b.toNat < c.opcodeMap.length, decodeOpcode c b = c.opcodeMap[b.toNat]) ∧
    (b.toNat < 16 ↔ decodeOpcode c b ≠ .illegal)

/-- R65: encode of an opcode is total: a real opcode's code in the map, and 200 for ILLEGAL, never a value in 0..15. -/
def Obligations.OpcodeEncodesToItsCode : Prop :=
  ∀ c : Config, c.Lawful →
    (∀ op : Opcode, op ≠ .illegal →
      ∃ h : (encodeOpcode c op).toNat < c.opcodeMap.length, c.opcodeMap[(encodeOpcode c op).toNat] = op) ∧
    encodeOpcode c .illegal = 200 ∧
    (∀ op : Opcode, (encodeOpcode c op).toNat < 16 ↔ op ≠ .illegal)

/-- The laws of R66 that hold: encode is injective, decode undoes encode on all 17 opcodes, encode undoes decode on
0..15, and every other byte comes back as 200. (R66's "exactly" fails at byte 200: see the next statement and log
entry 11.) -/
def Obligations.OpcodeMapInverts : Prop :=
  ∀ c : Config, c.Lawful →
    (∀ op₁ op₂ : Opcode, encodeOpcode c op₁ = encodeOpcode c op₂ → op₁ = op₂) ∧
    (∀ op : Opcode, decodeOpcode c (encodeOpcode c op) = op) ∧
    (∀ b : Byte, encodeOpcode c (decodeOpcode c b) = if b.toNat < 16 then b else 200)

/-- R66's third law as it is written, "exactly for b in 0..15". Expected to fail: byte 200 is re-encoded as itself, by R64
and R65. -/
def Obligations.OnlyRealCodesReencodeToThemselves : Prop :=
  ∀ b : Byte, encodeOpcode hwConfig (decodeOpcode hwConfig b) = b ↔ b.toNat < 16

/-- Decode of encode is the instruction, for every lawful `OPCODE_MAP`, both values of ARITH_DEST_POS, every operand and
any bytes that follow. ILLEGAL comes back with the sentinel byte, whatever byte it was read from (R65, R66). -/
def Obligations.DecodeOfEncodeIsTheInstruction : Prop :=
  ∀ (c : Config) (rest : List Byte), c.Lawful →
    (∀ i : Instr, i.opcode ≠ .illegal → decodeWith c (encodeWith c i ++ rest) = .ok i) ∧
    (∀ b0 : Byte, decodeWith c (encodeWith c (.illegal b0) ++ rest) = .ok (.illegal 200))

/-- The other direction: an instruction that was decoded is well formed, took no more bytes than there were, and encodes
back to exactly the bytes it was decoded from; ILLEGAL keeps the byte it was read from. -/
def Obligations.EncodeOfDecodeIsTheBytes : Prop :=
  ∀ (c : Config) (bytes : List Byte) (i : Instr), c.Lawful → decodeWith c bytes = .ok i →
    i.wellFormed = true ∧ i.length ≤ bytes.length ∧
    (i.opcode ≠ .illegal → encodeWith c i = bytes.take i.length) ∧
    (∀ b0, i = .illegal b0 → bytes.head? = some b0)

/-- R68: every register byte is checked before any register is read. The first one above 31, in byte order, is the one
the fault names; with none above 31 each register byte is the index of the instruction's operand. -/
def Obligations.RegisterBytesAreValidated : Prop :=
  ∀ (s : State) (op : Opcode), Ready s → decodeOpcode hwConfig (byte s 0) = op → s.pc + op.length ≤ s.len →
    (∀ k ∈ op.format.regPositions, 31 < (byte s k).toNat →
      (∀ j ∈ op.format.regPositions, j < k → (byte s j).toNat ≤ 31) →
      ∃ r, step s = .fault (.registerIndexOutOfRange r) ∧ r.operand = some (k, byte s k)) ∧
    ((∀ k ∈ op.format.regPositions, (byte s k).toNat ≤ 31) →
      ∃ i, fetch s = .instr i ∧ i.opcode = op ∧ ∀ k ∈ op.format.regPositions, (encode i)[k]? = some (byte s k))

/-- R67: LOAD's immediate is bytes 2 and 3, big-endian, and the register gets it zero-extended: 0..65535, never
negative. -/
def Obligations.LoadImmediateIsBigEndianUnsigned : Prop :=
  ∀ (s : State) (rd : Reg) (v : Imm), fetch s = .instr (.load rd v) →
    ∃ t, step s = .next t ∧ t.reg rd = 256 * ((byte s 2).toNat : Int) + ((byte s 3).toNat : Int) ∧
      0 ≤ t.reg rd ∧ t.reg rd ≤ 65535

/-- R77: the encoder's output is the opcode's byte, then the bytes of operand1, operand2 and operand3 in that order, an
absent slot giving none. The label never matters (R75). -/
def Obligations.EncoderEmitsOperandsInOrder : Prop :=
  ∀ (c : Config) (op : Opcode) (o1 o2 o3 : Option Token) (label : Option (List Char)),
    OperandSlot o1 → OperandSlot o2 → OperandSlot o3 →
    encodeParsed c ⟨.opcode op, o1, o2, o3, label⟩ =
      .ok (encodeOpcode c op :: (slotBytes o1 ++ slotBytes o2 ++ slotBytes o3))

/-- A Register or Immediate in the opcode slot is BadOpcodeSlot, whatever the operand slots hold; an Opcode-reference in any
operand slot of a proper opcode is BadOperandSlot (30_encoding.md, the instruction encoder). That BadOpcodeSlot wins where
both slots are bad is the model's choice, log entry 13: the rules give no order. -/
def Obligations.EncoderFaultsAreDistinct : Prop :=
  ∀ (c : Config) (p : ParsedInstr),
    ((∀ op, p.opcodeSlot ≠ .opcode op) → encodeParsed c p = .error .badOpcodeSlot) ∧
    (∀ op op', p.opcodeSlot = .opcode op →
      (p.operand1 = some (.opcode op') ∨ p.operand2 = some (.opcode op') ∨ p.operand3 = some (.opcode op')) →
      encodeParsed c p = .error .badOperandSlot)

/-- The Parsed Instruction with exactly the signature table's tokens encodes to the instruction's own bytes, and there is
one for every instruction but a comparison whose pad byte is above 31, which is no register index (30_encoding.md, the
instruction encoder). That it carries an arithmetic instruction's registers in byte order when ARITH_DEST_POS is 1 is the
model's choice, log entry 13. -/
def Obligations.SignatureTableEncodesTheInstruction : Prop :=
  ∀ (c : Config) (i : Instr),
    (∀ p, parsedOf c i = some p → encodeParsed c p = .ok (encodeWith c i)) ∧
    (parsedOf c i = none ↔ ∃ (rs1 rs2 : Reg) (pad : Byte), 31 < pad.toNat ∧
      (i = .eq rs1 rs2 pad ∨ i = .neq rs1 rs2 pad ∨ i = .gte rs1 rs2 pad ∨ i = .lte rs1 rs2 pad ∨
        i = .lt rs1 rs2 pad ∨ i = .gt rs1 rs2 pad))

/-- Every line the assembler accepts encodes to exactly one whole instruction, which the decoder reads back; the encoder
never faults on the assembler's output (R82, R87). With ARITH_DEST_POS = 1 an arithmetic line's registers are in byte order,
the model's choice, log entry 13. -/
def Obligations.AcceptedLinesAreWholeInstructions : Prop :=
  ∀ (c : Config) (line : List Char), c.Lawful →
    (∀ f, assembleLine c line ≠ .error (.encoding f)) ∧
    (∀ bytes, assembleLine c line = .ok bytes →
      ∃ i, decodeWith c bytes = .ok i ∧ encodeWith c i = bytes ∧ bytes.length = i.length)

/-- The canonical spelling of a decoded instruction is assembler input that encodes back to the same bytes, except for
ILLEGAL and a non-zero pad byte (30_encoding.md, assembler syntax). The spelling is R91's with ARITH_DEST_POS = 3; with the
other value, arithmetic registers are spelled in byte order, rd first, which is the model's choice, log entry 13. -/
def Obligations.SpellingAssemblesBack : Prop :=
  ∀ (c : Config) (i : Instr), c.Lawful → i.opcode ≠ .illegal →
    (∀ rs1 rs2 pad, (i = .eq rs1 rs2 pad ∨ i = .neq rs1 rs2 pad ∨ i = .gte rs1 rs2 pad ∨ i = .lte rs1 rs2 pad ∨
      i = .lt rs1 rs2 pad ∨ i = .gt rs1 rs2 pad) → pad = 0) →
    assembleLine c (spell c i) = .ok (encodeWith c i)

/-! ### One instruction, executed -/

/-- LOAD completes in every state (R130): the register gets the zero-extended immediate and nothing else changes but pc
and run. -/
def Obligations.LoadWritesTheImmediate : Prop :=
  ∀ (rd : Reg) (v : Imm) (s : State),
    ∃ t, exec (.load rd v) s = .next t ∧ t.reg rd = (v.toNat : Int) ∧
      RegsKeptBut rd s t ∧ t.flag = s.flag ∧ t.rem = s.rem ∧ Advances s t (s.pc + 4)

/-- ADD, SUB and MUL complete whenever the exact result fits 32 signed bits, in any aliasing of the registers: both sources
are read before the write. -/
def Obligations.AddSubMulWriteTheExactResult : Prop :=
  ∀ (rs1 rs2 rd : Reg) (s : State) (i : Instr) (v : Int),
    (i = .add rs1 rs2 rd ∧ v = s.reg rs1 + s.reg rs2 ∨ i = .sub rs1 rs2 rd ∧ v = s.reg rs1 - s.reg rs2 ∨
      i = .mul rs1 rs2 rd ∧ v = s.reg rs1 * s.reg rs2) → InRange v →
    ∃ t, exec i s = .next t ∧ t.reg rd = v ∧
      RegsKeptBut rd s t ∧ t.flag = s.flag ∧ t.rem = s.rem ∧ Advances s t (s.pc + 4)

/-- ADD, SUB and MUL raise ArithmeticOverflow, and never wrap, when the exact result does not fit: the spec's own choice
D4 (42_arithmetic.md, overflow policy), with the record of decision D11. -/
def Obligations.ArithmeticOverflowFaults : Prop :=
  ∀ (rs1 rs2 rd : Reg) (s : State),
    (¬ InRange (s.reg rs1 + s.reg rs2) →
      exec (.add rs1 rs2 rd) s = .fault (.arithmeticOverflow ⟨0x01, s.pc, none⟩)) ∧
    (¬ InRange (s.reg rs1 - s.reg rs2) →
      exec (.sub rs1 rs2 rd) s = .fault (.arithmeticOverflow ⟨0x02, s.pc, none⟩)) ∧
    (¬ InRange (s.reg rs1 * s.reg rs2) →
      exec (.mul rs1 rs2 rd) s = .fault (.arithmeticOverflow ⟨0x03, s.pc, none⟩))

/-- DIV completes unless the divisor is 0 or -2^31 is divided by -1: the truncated quotient goes to rd and the bit pattern
of the remainder to rem (the pattern of a negative remainder is the spec's own choice D6). -/
def Obligations.DivWritesQuotientAndRemainder : Prop :=
  ∀ (rs1 rs2 rd : Reg) (s : State), s.reg rs2 ≠ 0 → ¬ (s.reg rs1 = -2147483648 ∧ s.reg rs2 = -1) →
    ∃ t, exec (.div rs1 rs2 rd) s = .next t ∧ t.reg rd = (s.reg rs1).tdiv (s.reg rs2) ∧
      s32 t.rem = s.reg rs1 - s.reg rs2 * (s.reg rs1).tdiv (s.reg rs2) ∧
      RegsKeptBut rd s t ∧ t.flag = s.flag ∧ Advances s t (s.pc + 4)

/-- DIV's faults and their order: DivideByZero for a zero divisor, DivideOverflow for -2^31 by -1 (the spec's own choice
D5), each naming the divisor's byte. -/
def Obligations.DivFaults : Prop :=
  ∀ (rs1 rs2 rd : Reg) (s : State),
    (s.reg rs2 = 0 →
      exec (.div rs1 rs2 rd) s = .fault (.divideByZero ⟨0x04, s.pc, some (2, BitVec.ofNat 8 rs2.val)⟩)) ∧
    (s.reg rs1 = -2147483648 → s.reg rs2 = -1 →
      exec (.div rs1 rs2 rd) s = .fault (.divideOverflow ⟨0x04, s.pc, some (2, BitVec.ofNat 8 rs2.val)⟩))

/-- What the two results of a completed DIV are to each other (the rows of the division table, R145): dividend = divisor *
quotient + remainder, the remainder is smaller than the divisor and has the dividend's sign or is 0. -/
def Obligations.DivisionLaw : Prop :=
  ∀ (rs1 rs2 rd : Reg) (s t : State), exec (.div rs1 rs2 rd) s = .next t →
    s.reg rs1 = s.reg rs2 * t.reg rd + s32 t.rem ∧ |s32 t.rem| < |s.reg rs2| ∧
    (0 ≤ s.reg rs1 → 0 ≤ s32 t.rem) ∧ (s.reg rs1 ≤ 0 → s32 t.rem ≤ 0)

/-- HLT and ILLEGAL complete in every state, for every illegal byte: pc moves past the one byte, the core is Halted and
unarmed, nothing else changes (R150, R175). -/
def Obligations.HltAndIllegalHalt : Prop :=
  ∀ (s : State) (i : Instr), (i = .hlt ∨ ∃ b0, i = .illegal b0) →
    ∃ t, exec i s = .next t ∧ RegsKept s t ∧ t.flag = s.flag ∧ t.rem = s.rem ∧ Halts s t (s.pc + 1)

/-- JMP, JMPF and JMPB complete whenever the target is in 0..len, len included (the spec's own choice D7), and for JMPF and
JMPB the distance is not negative (D8): pc is the target and nothing else changes but run. -/
def Obligations.JumpsReachTheirTargets : Prop :=
  ∀ (ra : Reg) (s : State),
    (0 ≤ s.reg ra → s.reg ra ≤ s.len → JumpsTo (.jmp ra) s (s.reg ra)) ∧
    (0 ≤ s.reg ra → s.pc + 2 + s.reg ra ≤ s.len → JumpsTo (.jmpf ra) s (s.pc + 2 + s.reg ra)) ∧
    (0 ≤ s.reg ra → 0 ≤ s.pc + 2 - s.reg ra → s.pc + 2 - s.reg ra ≤ s.len →
      JumpsTo (.jmpb ra) s (s.pc + 2 - s.reg ra))

/-- Where JMP, JMPF and JMPB fault, and with which record (the spec's own choices D7, D8, D29, D11): a negative distance
first, then a target below 0, then one beyond len. -/
def Obligations.JumpFaults : Prop :=
  ∀ (ra : Reg) (s : State),
    (s.reg ra < 0 →
      exec (.jmp ra) s = .fault (.jumpBelowZero ⟨0x06, s.pc, some (1, BitVec.ofNat 8 ra.val)⟩) ∧
      exec (.jmpf ra) s = .fault (.negativeJumpDistance ⟨0x07, s.pc, some (1, BitVec.ofNat 8 ra.val)⟩) ∧
      exec (.jmpb ra) s = .fault (.negativeJumpDistance ⟨0x08, s.pc, some (1, BitVec.ofNat 8 ra.val)⟩)) ∧
    (s.reg ra > s.len → exec (.jmp ra) s = .fault (.jumpBeyondEnd ⟨0x06, s.pc, some (1, BitVec.ofNat 8 ra.val)⟩)) ∧
    (0 ≤ s.reg ra → s.pc + 2 + s.reg ra > s.len →
      exec (.jmpf ra) s = .fault (.jumpBeyondEnd ⟨0x07, s.pc, some (1, BitVec.ofNat 8 ra.val)⟩)) ∧
    (s.reg ra > s.pc + 2 →
      exec (.jmpb ra) s = .fault (.jumpBelowZero ⟨0x08, s.pc, some (1, BitVec.ofNat 8 ra.val)⟩)) ∧
    (0 ≤ s.reg ra → s.pc + 2 - s.reg ra > s.len →
      exec (.jmpb ra) s = .fault (.jumpBeyondEnd ⟨0x08, s.pc, some (1, BitVec.ofNat 8 ra.val)⟩))

/-- JMPE: with the flag true it jumps to a target in 0..len and faults on any other; with the flag false it falls through
to pc + 2 whatever the register holds (the spec's own choice D9). -/
def Obligations.JmpeFollowsTheFlag : Prop :=
  ∀ (ra : Reg) (s : State),
    (s.flag = true → 0 ≤ s.reg ra → s.reg ra ≤ s.len → JumpsTo (.jmpe ra) s (s.reg ra)) ∧
    (s.flag = false → JumpsTo (.jmpe ra) s (s.pc + 2)) ∧
    (s.flag = true → s.reg ra < 0 →
      exec (.jmpe ra) s = .fault (.jumpBelowZero ⟨0x0F, s.pc, some (1, BitVec.ofNat 8 ra.val)⟩)) ∧
    (s.flag = true → s.reg ra > s.len →
      exec (.jmpe ra) s = .fault (.jumpBeyondEnd ⟨0x0F, s.pc, some (1, BitVec.ofNat 8 ra.val)⟩))

/-- Each comparison completes in every state, for every pad byte, and writes its own relation's result to the flag. -/
def Obligations.ComparisonsSetTheFlag : Prop :=
  ∀ (rs1 rs2 : Reg) (pad : Byte) (s : State),
    ComparisonSetsFlag (.eq rs1 rs2 pad) s (s.reg rs1 = s.reg rs2) ∧
    ComparisonSetsFlag (.neq rs1 rs2 pad) s (s.reg rs1 ≠ s.reg rs2) ∧
    ComparisonSetsFlag (.gte rs1 rs2 pad) s (s.reg rs1 ≥ s.reg rs2) ∧
    ComparisonSetsFlag (.lte rs1 rs2 pad) s (s.reg rs1 ≤ s.reg rs2) ∧
    ComparisonSetsFlag (.lt rs1 rs2 pad) s (s.reg rs1 < s.reg rs2) ∧
    ComparisonSetsFlag (.gt rs1 rs2 pad) s (s.reg rs1 > s.reg rs2)

/-- The relations between the six comparisons (44_compare.md, relations of the family), on the flags they leave. -/
def Obligations.ComparisonsAgreeWithEachOther : Prop :=
  ∀ (rs1 rs2 : Reg) (pad : Byte) (s tEq tNeq tGte tLte tLt tGt tGteSwap tGtSwap : State),
    exec (.eq rs1 rs2 pad) s = .next tEq → exec (.neq rs1 rs2 pad) s = .next tNeq →
    exec (.gte rs1 rs2 pad) s = .next tGte → exec (.lte rs1 rs2 pad) s = .next tLte →
    exec (.lt rs1 rs2 pad) s = .next tLt → exec (.gt rs1 rs2 pad) s = .next tGt →
    exec (.gte rs2 rs1 pad) s = .next tGteSwap → exec (.gt rs2 rs1 pad) s = .next tGtSwap →
    tNeq.flag = !tEq.flag ∧ tLt.flag = !tGte.flag ∧ tGt.flag = !tLte.flag ∧
    tGteSwap.flag = tLte.flag ∧ tGtSwap.flag = tLt.flag ∧
    (tLt.flag.toNat + tEq.flag.toNat + tGt.flag.toNat = 1) ∧
    (rs1 = rs2 → tEq.flag = true ∧ tGte.flag = true ∧ tLte.flag = true ∧
      tNeq.flag = false ∧ tLt.flag = false ∧ tGt.flag = false)

/-! ### One instruction, from its bytes: the whole rule -/

/-- R130, whole: bytes `00 rd hi lo`, the register's new value, what stays, and the two faults. -/
def Obligations.LoadRule : Prop :=
  Truncates 0x00 4 ∧ RejectsRegisters 0x00 4 [1] ∧
  ∀ (s : State) (rd : Reg), Ready s → s.pc + 4 ≤ s.len → byte s 0 = 0x00 → (byte s 1).toNat = rd.val →
    ∃ t, step s = .next t ∧ t.reg rd = 256 * ((byte s 2).toNat : Int) + ((byte s 3).toNat : Int) ∧
      RegsKeptBut rd s t ∧ t.flag = s.flag ∧ t.rem = s.rem ∧ Advances s t (s.pc + 4)

/-- R140, R141 and R142, whole: ADD, SUB and MUL from their bytes. -/
def Obligations.AddSubMulRules : Prop :=
  ArithmeticRule 0x01 .add (fun a b => a + b) ∧ ArithmeticRule 0x02 .sub (fun a b => a - b) ∧
  ArithmeticRule 0x03 .mul (fun a b => a * b)

/-- R161 to R166, whole: the six comparisons from their bytes. -/
def Obligations.ComparisonRules : Prop :=
  ComparisonRule 0x09 .eq (fun a b => a = b) ∧ ComparisonRule 0x0A .neq (fun a b => a ≠ b) ∧
  ComparisonRule 0x0B .gte (fun a b => a ≥ b) ∧ ComparisonRule 0x0C .lte (fun a b => a ≤ b) ∧
  ComparisonRule 0x0D .lt (fun a b => a < b) ∧ ComparisonRule 0x0E .gt (fun a b => a > b)

/-- R151, whole: bytes `06 ra`, the jump to x[ra] read as signed, and its four faults. -/
def Obligations.JmpRule : Prop :=
  Truncates 0x06 2 ∧ RejectsRegisters 0x06 2 [1] ∧
  ∀ (s : State) (ra : Reg), Ready s → s.pc + 2 ≤ s.len → byte s 0 = 0x06 → (byte s 1).toNat = ra.val →
    (0 ≤ s.reg ra → s.reg ra ≤ s.len → ∃ t, step s = .next t ∧ (t.pc : Int) = s.reg ra ∧ t.run = .running ∧
      t.armed = s.armed ∧ BufKept s t ∧ RegsKept s t ∧ t.flag = s.flag ∧ t.rem = s.rem) ∧
    (s.reg ra < 0 → step s = .fault (.jumpBelowZero ⟨0x06, s.pc, some (1, byte s 1)⟩)) ∧
    (s.reg ra > s.len → step s = .fault (.jumpBeyondEnd ⟨0x06, s.pc, some (1, byte s 1)⟩))

/-- R175, whole: every byte in 16..255 halts the core gracefully, reports itself, and moves pc by exactly 1. -/
def Obligations.IllegalRule : Prop :=
  ∀ s : State, Ready s → 16 ≤ (byte s 0).toNat →
    ∃ t, step s = .next t ∧ stepCommand s = (.halted (.illegalOpcode (byte s 0)), t) ∧
      RegsKept s t ∧ t.flag = s.flag ∧ t.rem = s.rem ∧ Halts s t (s.pc + 1)

/-! ### Steps -/

/-- A step runs the decoded instruction (R104): when the core may step and the bytes at pc decode to i, the step is exec
of i, and its outcome is Running, or the halt that i ends in, or i's fault. -/
def Obligations.StepRunsTheDecodedInstruction : Prop :=
  ∀ (s : State) (i : Instr), Ready s → decode (s.window maxLength s.pc) = .ok i →
    step s = exec i s ∧ stepCommand s = execCommand i s

/-- The first checks of a step, in their order (60_exceptions.md, order of checks; the spec's own choices D10, D12, D15,
D16): Halted and unarmed does nothing; then the end of the program halts; then too few bytes fault. -/
def Obligations.StepChecksInOrder : Prop :=
  ∀ s : State,
    (s.run = .halted → s.armed = false → step s = .next s ∧ stepCommand s = (.halted .notResumed, s)) ∧
    (¬ (s.run = .halted ∧ s.armed = false) → s.len ≤ s.pc →
      ∃ t, step s = .next t ∧ stepCommand s = (.halted .endOfProgram, t) ∧
        RegsKept s t ∧ t.flag = s.flag ∧ t.rem = s.rem ∧ Halts s t s.pc) ∧
    (Ready s → s.len < s.pc + (decodeOpcode hwConfig (byte s 0)).length →
      step s = .fault (.truncatedInstruction ⟨byte s 0, s.pc, none⟩))

/-- Every step answers a next state or a fault: the model refuses nothing (R102; 93_implementation_defined.md: no behaviour
is stuck). -/
def Obligations.NoStepIsRefused : Prop := ∀ (s : State) (r : Refusal), step s ≠ .refused r

/-- The outcome a step reports agrees with the state it leaves: Running leaves run Running; Halted leaves run Halted and
unarmed; both are next states of `step`; a Fault is a fault of `step`. -/
def Obligations.OutcomeAgreesWithState : Prop :=
  ∀ (s t : State) (o : StepOutcome), stepCommand s = (o, t) →
    (o = .running → step s = .next t ∧ t.run = .running) ∧
    (∀ r, o = .halted r → step s = .next t ∧ t.run = .halted ∧ t.armed = false) ∧
    (∀ f, o = .fault f → step s = .fault f)

/-- R183: a step that returns a Fault changes no state, and the fault's pc names the faulting instruction. -/
def Obligations.FaultsArePrecise : Prop :=
  ∀ (s t : State) (f : Fault), stepCommand s = (.fault f, t) → t = s ∧ f.record.pc = s.pc

/-- The record's opcode is the byte read at pc, and an operand named is a byte of the instruction (the record's layout is
the spec's own choice D11). -/
def Obligations.FaultRecordsNameTheBytes : Prop :=
  ∀ (s : State) (f : Fault), step s = .fault f →
    f.record.opcode = byte s 0 ∧ ∀ k b, f.record.operand = some (k, b) → b = byte s k ∧ 0 < k ∧ s.pc + k < s.len

/-- R189: EndOfProgram, HltExecuted and IllegalOpcode are next states, never faults; HLT and ILLEGAL advance pc by 1 and
commit it; EndOfProgram leaves pc. -/
def Obligations.GracefulHaltsAreNotFaults : Prop :=
  ∀ (s t : State) (r : HaltReason), stepCommand s = (.halted r, t) →
    step s = .next t ∧ (∀ f, step s ≠ .fault f) ∧
    (r = .hltExecuted → t.pc = s.pc + 1) ∧ (∀ b, r = .illegalOpcode b → t.pc = s.pc + 1) ∧
    (r = .endOfProgram → t.pc = s.pc)

/-- R110: every instruction that completes, except a taken jump, moves pc past exactly its bytes; a taken jump sets pc to
its target; a faulting step leaves pc. -/
def Obligations.SequentialAdvance : Prop :=
  (∀ (s t : State) (i : Instr), fetch s = .instr i → step s = .next t →
    (¬ JumpTaken i s → t.pc = s.pc + i.length) ∧
    (∀ ra, i = .jmp ra → (t.pc : Int) = s.reg ra) ∧
    (∀ ra, i = .jmpf ra → (t.pc : Int) = s.pc + 2 + s.reg ra) ∧
    (∀ ra, i = .jmpb ra → (t.pc : Int) = s.pc + 2 - s.reg ra) ∧
    (∀ ra, i = .jmpe ra → s.flag = true → (t.pc : Int) = s.reg ra)) ∧
  (∀ (s t : State) (f : Fault), stepCommand s = (.fault f, t) → t.pc = s.pc)

/-- A completing step that executes no jump instruction strictly increases pc; a step that completes no instruction leaves
it (40_cycle.md, monotone pc; conflict C4). -/
def Obligations.ProgramCounterGrowsWithoutJumps : Prop :=
  ∀ (s t : State) (o : StepOutcome), stepCommand s = (o, t) →
    ((o = .running ∨ o = .halted .hltExecuted ∨ ∃ b, o = .halted (.illegalOpcode b)) →
      (∀ ra, fetch s ≠ .instr (.jmp ra) ∧ fetch s ≠ .instr (.jmpf ra) ∧ fetch s ≠ .instr (.jmpb ra) ∧
        fetch s ≠ .instr (.jmpe ra)) → s.pc < t.pc) ∧
    (((∃ f, o = .fault f) ∨ o = .halted .endOfProgram ∨ o = .halted .notResumed) → t.pc = s.pc)

/-- A Halted, unarmed core stays exactly as it is through any number of steps (40_cycle.md, halted persistence; the spec's
own choices D15, D16). -/
def Obligations.HaltedCoreStays : Prop :=
  ∀ (s : State) (n : Nat), s.run = .halted → s.armed = false →
    Sys2Proof.core.run n s = .next s ∧ runToHalt (n + 1) s = (some (.halted .notResumed), s)

/-- After a non-empty append, a Halted core executes the instruction at pc on its next step; the append itself changes
neither run nor pc, the registers, flag or rem, and an empty append changes nothing at all (40_cycle.md, appendBytes and
resume; the spec's own choices D15, D27, D30). -/
def Obligations.AppendArmsTheCore : Prop :=
  ∀ (cap : Nat) (s t : State) (bytes : List Byte), appendBytesWithin cap s bytes = .ok t →
    t.run = s.run ∧ t.pc = s.pc ∧ RegsKept s t ∧ t.flag = s.flag ∧ t.rem = s.rem ∧
    (bytes = [] → t = s) ∧
    (bytes ≠ [] → t.armed = true ∧ (stepCommand t).1 ≠ .halted .notResumed ∧
      ∀ i, t.pc < t.len → decode (t.window maxLength t.pc) = .ok i → step t = exec i t)

/-- A TruncatedInstruction fault is cured by appending the missing bytes (60_exceptions.md, a fault is not latched). The
first premise is the buffer's canonical form, which is the model's choice, log entry 4. -/
def Obligations.AppendCuresTruncation : Prop :=
  ∀ (s : State) (bytes : List Byte) (r : FaultRecord), s.BufOk → step s = .fault (.truncatedInstruction r) →
    s.pc + (decodeOpcode hwConfig (byte s 0)).length ≤ s.len + bytes.length →
    ∀ r', step (s.append bytes) ≠ .fault (.truncatedInstruction r')

/-! ### Who may change what -/

/-- R23: an instruction writes no general register but its destination, and reads none but its sources: two states that
agree on its sources give the same answer but for the registers it does not write. The host's other commands write no
register. -/
def Obligations.RegisterAccess : Prop :=
  (∀ (i : Instr) (s t : State), exec i s = .next t → ∀ r, destReg i ≠ some r → t.reg r = s.reg r) ∧
  (∀ (i : Instr) (s : State) (x' : Vector Word 32),
    (∀ r ∈ sourceRegs i, ({ s with x := x' } : State).reg r = s.reg r) →
    SameButOtherRegs i (exec i s) (exec i { s with x := x' })) ∧
  (∀ (cap : Nat) (c : Command) (s : State), c ≠ .step → (∀ n, c ≠ .runToHalt n) →
    RegsKept s (command cap c s).2)

/-- Only the six comparisons write the equal flag and only JMPE reads it (10_state.md, equal flag). -/
def Obligations.EqualFlagAccess : Prop :=
  (∀ s t : State, step s = .next t → t.flag ≠ s.flag → ∃ i, fetch s = .instr i ∧ IsComparison i) ∧
  (∀ (i : Instr) (s : State) (b : Bool), (∀ ra, i ≠ .jmpe ra) →
    SameButFlag (IsComparison i) (exec i s) (exec i { s with flag := b }))

/-- Only DIV writes rem, and no step reads it: two states that differ in rem alone take the same step, fetch included, and
differ in rem alone after it, unless the step was a DIV, which makes them equal (10_state.md, remainder register). -/
def Obligations.RemainderIsWriteOnly : Prop :=
  (∀ s t : State, step s = .next t → t.rem ≠ s.rem → ∃ rs1 rs2 rd, fetch s = .instr (.div rs1 rs2 rd)) ∧
  (∀ (s : State) (w : Word),
    SameButRem (∃ rs1 rs2 rd, fetch s = .instr (.div rs1 rs2 rd)) w (step s) (step { s with rem := w }))

/-- No step writes the program buffer: the core has no store (10_state.md, program buffer; 20_memory.md, fetch
coherence). -/
def Obligations.StepsNeverWriteTheBuffer : Prop :=
  ∀ s t : State, step s = .next t → t.buf = s.buf ∧ t.len = s.len

/-- appendBytes adds its bytes in order at len.., grows len by their number, and rewrites no byte (20_memory.md, access
widths, atomicity and side effects). The premise and the last clause are about the buffer's canonical form, which is the
model's choice, log entry 4. -/
def Obligations.AppendAddsAtTheEnd : Prop :=
  ∀ (cap : Nat) (s t : State) (bytes : List Byte), s.BufOk → appendBytesWithin cap s bytes = .ok t →
    t.len = s.len + bytes.length ∧ (∀ (k : Nat) (h : k < bytes.length), t.byteAt (s.len + k) = bytes[k]) ∧
    (∀ a, a < s.len → t.byteAt a = s.byteAt a) ∧ t.BufOk

/-- An append is accepted iff it fits the capacity; one that does not fit is rejected whole, and the command then changes
nothing (20_memory.md, capacity; the spec's own choice D18). -/
def Obligations.AppendRespectsCapacity : Prop :=
  ∀ (cap : Nat) (s : State) (bytes : List Byte),
    (s.len + bytes.length ≤ cap → command cap (.appendBytes bytes) s = (.appended, s.append bytes)) ∧
    (cap < s.len + bytes.length → command cap (.appendBytes bytes) s = (.appendFault .capacityExceeded, s))

/-- Through any session of host commands, a byte once appended never changes and is never removed. The premise is the
buffer's canonical form, which is the model's choice, log entry 4. -/
def Obligations.BufferIsAppendOnly : Prop :=
  ∀ (cap : Nat) (cs : List Command) (s : State), s.BufOk →
    s.len ≤ (session cap cs s).2.len ∧ ∀ a, a < s.len → (session cap cs s).2.byteAt a = s.byteAt a

/-- Each command of a session runs to completion before the next begins (40_cycle.md, agents and commands): where every
command of `cs` completed, a longer session goes on from the state `cs` left; where one did not, a `runToHalt` whose fuel
ended, no later command begins. The fuel and how a session ends with it are the model's choice, log entry 9. -/
def Obligations.SessionsRunEachCommandToCompletion : Prop :=
  ∀ (cap : Nat) (cs ds : List Command) (s : State),
    (Reply.stillRunning ∉ (session cap cs s).1 →
      (session cap cs s).1.length = cs.length ∧
      session cap (cs ++ ds) s = ((session cap cs s).1 ++ (session cap ds (session cap cs s).2).1,
        (session cap ds (session cap cs s).2).2)) ∧
    (Reply.stillRunning ∈ (session cap cs s).1 → session cap (cs ++ ds) s = session cap cs s)

/-! ### Invariants -/

/-- From every state with pc <= len <= cap and a canonical buffer, every step that answers a next state leads to one. The
canonical form is the model's choice, log entry 4. -/
def Obligations.StepKeepsTheInvariant : Prop :=
  ∀ (cap : Nat) (s t : State), s.Inv cap → step s = .next t → t.Inv cap

/-- Reset meets the invariant, whatever the capacity. -/
def Obligations.ResetMeetsTheInvariant : Prop := ∀ cap : Nat, State.reset.Inv cap

/-- Every session of host commands keeps the invariant, from every state that meets it. The canonical form in it is the
model's choice, log entry 4. -/
def Obligations.SessionsKeepTheInvariant : Prop :=
  ∀ (cap : Nat) (cs : List Command) (s : State), s.Inv cap → (session cap cs s).2.Inv cap

/-- The values reset leaves (10_state.md, reset values in one table): registers, pc and run as the source fixes them; flag,
rem, buf and armed are the spec's own choices D15 and D17. -/
def Obligations.ResetValues : Prop :=
  (∀ r : Reg, State.reset.reg r = 0) ∧ State.reset.pc = 0 ∧ State.reset.run = .running ∧
  State.reset.flag = false ∧ State.reset.rem = 0 ∧ State.reset.buf = [] ∧ State.reset.len = 0 ∧
  State.reset.armed = false

/-- A step before anything is appended halts with EndOfProgram (70_reset_and_hazards.md, first step). -/
def Obligations.FirstStepFindsNoProgram : Prop :=
  stepCommand State.reset = (.halted .endOfProgram, { State.reset with run := .halted })

/-! ### Runs -/

/-- runToHalt returns the first outcome that is not Running, with the state that step left, whatever fuel remains; with too
little fuel it has taken exactly that many Running steps (40_cycle.md, runToHalt; the spec's own choice D14). -/
def Obligations.RunToHaltStopsAtTheFirstStop : Prop :=
  ∀ (n : Nat) (s u : State), RunningSteps n s u →
    runToHalt n s = (none, u) ∧
    ∀ (t : State) (o : StepOutcome) (extra : Nat), stepCommand u = (o, t) → o ≠ .running →
      runToHalt (n + 1 + extra) s = (some o, t)

/-- What runToHalt returns was returned by a step after a number of Running steps, and it is never Running. -/
def Obligations.RunToHaltAnswersAStepsOutcome : Prop :=
  ∀ (fuel : Nat) (s t : State) (o : StepOutcome), runToHalt fuel s = (some o, t) →
    o ≠ .running ∧ ∃ n u, n < fuel ∧ RunningSteps n s u ∧ stepCommand u = (o, t)

/-- What ends a successful run: its last step left the core Halted and unarmed (70_reset_and_hazards.md, end of a run). -/
def Obligations.GracefulRunsEndHalted : Prop :=
  ∀ (fuel : Nat) (s t : State) (o : StepOutcome), runToHalt fuel s = (some o, t) → o.graceful = true →
    t.run = .halted ∧ t.armed = false
end

