-- ==== Sys2Proof/Laws/Assembler.lean ====
section
/-! SUPPORT. The assembler's lexer on spelled text: words, decimal numbers, operand tokens, mnemonics; and the shapes the
signature check accepts. -/

namespace Sys2Proof.Machine

/-- A word: not empty, no blank in it. -/
def IsWord (w : List Char) : Prop := w ≠ [] ∧ ∀ ch ∈ w, isBlank ch = false

/-- The lexer takes characters that are not blank into the word it is reading. -/
theorem wordsFrom_append (w rest cur : List Char) (h : ∀ ch ∈ w, isBlank ch = false) :
    wordsFrom cur (w ++ rest) = wordsFrom (cur ++ w) rest := by
  induction w generalizing cur with
  | nil => simp
  | cons a w ih =>
    have := h a (by simp)
    simp only [List.cons_append, wordsFrom, this, Bool.false_eq_true, if_false]
    rw [ih _ fun ch hc => h ch (by simp [hc])]
    simp

/-- The words of a word followed by words with one space before each are those words. -/
theorem lineWords_spaced (m : List Char) (ops : List (List Char)) (hm : IsWord m) (ho : ∀ w ∈ ops, IsWord w) :
    lineWords (m ++ ops.flatMap fun w => ' ' :: w) = m :: ops := by
  unfold lineWords
  induction ops generalizing m with
  | nil =>
    simp only [List.flatMap_nil]
    rw [wordsFrom_append _ _ _ hm.2]
    simp [wordsFrom, flushWord, hm.1]
  | cons o ops ih =>
    rw [List.flatMap_cons, wordsFrom_append _ _ _ hm.2]
    simp only [List.cons_append, wordsFrom, List.nil_append, show isBlank ' ' = true by decide, if_true]
    rw [ih o (ho o (by simp)) fun w hw => ho w (by simp [hw])]
    simp [flushWord, hm.1]

/-- Reading one more digit. -/
theorem decimalFrom_concat (l : List Char) (ch : Char) (acc : Nat) :
    decimalFrom acc (l ++ [ch]) = (decimalFrom acc l).bind fun n => (digitValue ch).map (10 * n + ·) := by
  induction l generalizing acc with
  | nil =>
    simp only [List.nil_append, decimalFrom]
    cases digitValue ch <;> rfl
  | cons a l ih =>
    simp only [List.cons_append, decimalFrom]
    cases digitValue a with
    | none => rfl
    | some d => simp [ih]

/-- A digit's character is that digit and is not blank. -/
theorem digitChar_spec : ∀ d : Fin 10, digitValue (digitChar d) = some d.val ∧ isBlank (digitChar d) = false := by
  decide

/-- A spelled number is read back as itself, and is a word. -/
theorem decimalChars_spec (fuel n : Nat) (h : n < 10 ^ (fuel + 1)) :
    decimalFrom 0 (decimalChars (fuel + 1) n) = some n ∧ IsWord (decimalChars (fuel + 1) n) := by
  induction fuel generalizing n with
  | zero =>
    have hn : n < 10 := by simpa using h
    have hd := digitChar_spec ⟨n, hn⟩
    simp only at hd
    simp [decimalChars, hn, decimalFrom, hd, IsWord]
  | succ f ih =>
    have hd := digitChar_spec ⟨n % 10, by omega⟩
    simp only at hd
    unfold decimalChars
    split
    · have hd := digitChar_spec ⟨n, ‹_›⟩
      simp only at hd
      simp [decimalFrom, hd, IsWord]
    · obtain ⟨h1, h2, h3⟩ := ih (n / 10) (by rw [pow_succ] at h; omega)
      refine ⟨by rw [decimalFrom_concat, h1]; simp [hd]; omega, by simp, fun ch hc => ?_⟩
      rcases List.mem_append.mp hc with hc | hc
      · exact h3 ch hc
      · rw [List.mem_singleton.mp hc]
        exact hd.2

/-- A spelled number is read back as itself. -/
theorem decimal_decimalChars (fuel n : Nat) (h : n < 10 ^ (fuel + 1)) : decimal (decimalChars (fuel + 1) n) = some n := by
  obtain ⟨h1, h2, -⟩ := decimalChars_spec fuel n h
  cases hc : decimalChars (fuel + 1) n with
  | nil => exact absurd hc h2
  | cons a l => rw [hc] at h1; exact h1

/-- A spelled register is a word, and is read back as itself. -/
theorem spellReg_spec (r : Reg) : IsWord (spellReg r) ∧ operandToken (spellReg r) = some (.register r) := by
  have hr := r.isLt
  have h := decimalChars_spec 1 r.val (by omega)
  refine ⟨⟨by simp [spellReg], ?_⟩, by simp [spellReg, operandToken, decimal_decimalChars 1 r.val (by omega), registerToken]⟩
  simp only [spellReg, List.mem_cons, forall_eq_or_imp]
  exact ⟨by decide, h.2.2⟩

/-- A spelled immediate is a word, and is read back as itself. -/
theorem spellImm_spec (v : Imm) : IsWord (spellImm v) ∧ operandToken (spellImm v) = some (.immediate v) := by
  have hv := v.isLt
  have h := decimalChars_spec 4 v.toNat (by omega)
  refine ⟨⟨by simp [spellImm], ?_⟩,
    by simp [spellImm, operandToken, decimal_decimalChars 4 v.toNat (by omega), immediateToken, hv]⟩
  simp only [spellImm, List.mem_cons, forall_eq_or_imp]
  exact ⟨by decide, h.2.2⟩

/-- A real opcode's mnemonic is a word, and is read back as that opcode. -/
theorem mnemonic_spec (op : Opcode) (h : op ≠ .illegal) :
    IsWord (mnemonicOf mnemonicTable op) ∧ lookupMnemonic (mnemonicOf mnemonicTable op) = op := by
  cases op <;> first
    | exact absurd rfl h
    | simp [mnemonicOf, mnemonicTable, lookupMnemonic, mnemonicIn, isBlank, IsWord]

/-- What the signature check accepts: an opcode with its own format's operands, the pad operand of a comparison being
register 0. -/
theorem checkSignature_ok {op : Opcode} {f : Form} {p : ParsedInstr} (h : checkSignature op f = .ok p) :
    (∃ r v, op.format = .fri ∧ p = ⟨.opcode op, some (.register r), some (.immediate v), none, none⟩) ∨
    (∃ a b c, op.format = .frrr ∧
      p = ⟨.opcode op, some (.register a), some (.register b), some (.register c), none⟩) ∨
    (∃ a b, op.format = .frrx ∧
      p = ⟨.opcode op, some (.register a), some (.register b), some (.register 0), none⟩) ∨
    (∃ a, op.format = .fr ∧ p = ⟨.opcode op, some (.register a), none, none, none⟩) ∨
    (op.format = .f0 ∧ p = ⟨.opcode op, none, none, none, none⟩) := by
  cases f <;> simp only [checkSignature, signed] at h <;> split at h <;> simp at h <;> subst h <;> simp [*]

end Sys2Proof.Machine
end

