-- ==== Sys2Proof/Laws/Decode.lean ====
section
/-! SUPPORT. Register and immediate bytes, each read back from the bytes it is written as and the other way round; what the
decoder of each format can answer. -/

namespace Sys2Proof

/-- A register's byte is read as that register. -/
@[simp] theorem regOfByte_regByte (r : Reg) : regOfByte (regByte r) = some r := by
  have h := r.isLt
  have hb : (regByte r).toNat = r.val := by
    simp only [regByte, BitVec.toNat_ofNat]
    omega
  simp [regOfByte, hb]

/-- The byte of the register a byte names is that byte. -/
theorem regByte_of_regOfByte {b : Byte} {r : Reg} (h : regOfByte b = some r) : regByte r = b := by
  unfold regOfByte at h
  split at h
  · obtain rfl := Option.some.inj h
    exact BitVec.eq_of_toNat_eq (by simp [regByte])
  · exact absurd h (by simp)

/-- A byte names a register iff it is at most 31 (R22). -/
theorem regOfByte_eq_none {b : Byte} : regOfByte b = none ↔ 31 < b.toNat := by
  unfold regOfByte
  split
  · simp; omega
  · simp; omega

/-- A byte up to 31 is the byte of a register. -/
theorem exists_regByte {b : Byte} (h : b.toNat ≤ 31) : ∃ r, b = regByte r := by
  cases hr : regOfByte b with
  | none => exact absurd (regOfByte_eq_none.mp hr) (by omega)
  | some r => exact ⟨r, (regByte_of_regOfByte hr).symm⟩

/-- A register's byte, as a number. -/
theorem regByte_toNat (r : Reg) : (regByte r).toNat = r.val := by
  have h := r.isLt
  simp only [regByte, BitVec.toNat_ofNat]
  omega

/-- Decoding goes on at a register's byte. -/
@[simp] theorem withReg_regByte (b0 : Byte) (k : Nat) (r : Reg) (go : Reg → Except DecodeError Instr) :
    withReg b0 k (regByte r) go = go r := by
  simp [withReg]

/-- Decoding stops at a byte above 31. -/
theorem withReg_of_bad {b0 b : Byte} {k : Nat} {go : Reg → Except DecodeError Instr} (h : 31 < b.toNat) :
    withReg b0 k b go = .error (.badRegister b0 k b) := by
  simp [withReg, regOfByte_eq_none.mpr h]

/-- If decoding went on past a byte, it is a register's byte. -/
theorem withReg_ok {b0 b : Byte} {k : Nat} {go : Reg → Except DecodeError Instr} {i : Instr}
    (h : withReg b0 k b go = .ok i) : ∃ r, b = regByte r ∧ go r = .ok i := by
  unfold withReg at h
  split at h
  · exact ⟨_, (regByte_of_regOfByte ‹_›).symm, h⟩
  · exact absurd h (by simp)

/-- An immediate is read back from its two bytes. -/
@[simp] theorem immOfBytes_split (v : Imm) : immOfBytes (immHi v) (immLo v) = v := by
  refine BitVec.eq_of_getLsbD_eq fun i hi => ?_
  simp only [immOfBytes, immHi, immLo, BitVec.getLsbD_append, BitVec.getLsbD_extractLsb']
  by_cases h : i < 8
  · simp [h]
  · simp [h, show i - 8 < 8 by omega, show 8 + (i - 8) = i by omega]

/-- An immediate's value from its two bytes (R67). -/
theorem immOfBytes_toNat (hi lo : Byte) : (immOfBytes hi lo).toNat = 256 * hi.toNat + lo.toNat := by
  have h := lo.isLt
  unfold immOfBytes
  rw [BitVec.toNat_append, ← Nat.shiftLeft_add_eq_or_of_lt h, Nat.shiftLeft_eq]
  omega

/-- The high byte of an immediate made of two bytes. -/
@[simp] theorem immHi_immOfBytes (hi lo : Byte) : immHi (immOfBytes hi lo) = hi := by
  have h1 := hi.isLt
  have h2 := lo.isLt
  refine BitVec.eq_of_toNat_eq ?_
  rw [immHi, BitVec.extractLsb'_toNat, immOfBytes_toNat, Nat.shiftRight_eq_div_pow]
  omega

/-- The low byte of an immediate made of two bytes. -/
@[simp] theorem immLo_immOfBytes (hi lo : Byte) : immLo (immOfBytes hi lo) = lo := by
  have h2 := lo.isLt
  refine BitVec.eq_of_toNat_eq ?_
  rw [immLo, BitVec.extractLsb'_toNat, immOfBytes_toNat, Nat.shiftRight_zero]
  omega

/-- The configuration of the machine keeps the laws of R63 and R66. -/
theorem hwConfig_lawful : hwConfig.Lawful := by decide

/-! ### What the decoder of each format can answer -/

/-- If format FR gave an instruction, the next byte is its register's. -/
theorem decodeFR_ok {b0 : Byte} {mk : Reg → Instr} {l : List Byte} {i : Instr} (h : decodeFR b0 mk l = .ok i) :
    ∃ r t, l = regByte r :: t ∧ i = mk r := by
  unfold decodeFR at h
  split at h
  · obtain ⟨r, rfl, h⟩ := withReg_ok h
    exact ⟨r, _, rfl, by simpa using h.symm⟩
  · exact absurd h (by simp)

/-- If format FRI gave an instruction, the next three bytes are its register's and its immediate's. -/
theorem decodeFRI_ok {b0 : Byte} {mk : Reg → Imm → Instr} {l : List Byte} {i : Instr} (h : decodeFRI b0 mk l = .ok i) :
    ∃ r a b t, l = regByte r :: a :: b :: t ∧ i = mk r (immOfBytes a b) := by
  unfold decodeFRI at h
  split at h
  · obtain ⟨r, rfl, h⟩ := withReg_ok h
    exact ⟨r, _, _, _, rfl, by simpa using h.symm⟩
  · exact absurd h (by simp)

/-- If format FRRX gave an instruction, the next three bytes are its registers' and its pad byte. -/
theorem decodeFRRX_ok {b0 : Byte} {mk : Reg → Reg → Byte → Instr} {l : List Byte} {i : Instr}
    (h : decodeFRRX b0 mk l = .ok i) : ∃ r q b t, l = regByte r :: regByte q :: b :: t ∧ i = mk r q b := by
  unfold decodeFRRX at h
  split at h
  · obtain ⟨r, rfl, h1⟩ := withReg_ok h
    clear h
    obtain ⟨q, rfl, h⟩ := withReg_ok h1
    exact ⟨r, q, _, _, rfl, by simpa using h.symm⟩
  · exact absurd h (by simp)

/-- If format FRRR gave an instruction, the next three bytes are its registers' in the configured order. -/
theorem decodeFRRR_ok {c : Config} {b0 : Byte} {mk : Reg → Reg → Reg → Instr} {l : List Byte} {i : Instr}
    (h : decodeFRRR c b0 mk l = .ok i) : ∃ r q d t, i = mk r q d ∧ l = encodeFRRR c r q d ++ t := by
  unfold decodeFRRR at h
  split at h
  · obtain ⟨r, rfl, h1⟩ := withReg_ok h
    clear h
    obtain ⟨q, rfl, h2⟩ := withReg_ok h1
    clear h1
    obtain ⟨p, rfl, h⟩ := withReg_ok h2
    split at h
    · exact ⟨r, q, p, _, by simpa using h.symm, by simp [encodeFRRR, *]; rfl⟩
    · exact ⟨q, p, r, _, by simpa using h.symm, by simp [encodeFRRR, *]; rfl⟩
  · exact absurd h (by simp)

/-- Fewer bytes than the opcode's length are refused as truncated, whatever they are. -/
theorem decodeOperands_of_short {c : Config} {b0 : Byte} {rest : List Byte} {op : Opcode}
    (h : rest.length + 1 < op.length) : decodeOperands c b0 rest op = .error (.truncated b0) := by
  cases op <;> simp [Opcode.length, Opcode.format, Format.length] at h <;>
    simp only [decodeOperands, decodeFRI, decodeFR, decodeFRRR, decodeFRRX] <;>
    (match rest, h with
      | [], _ => rfl
      | [_], h => first | rfl | (simp at h)
      | [_, _], h => first | rfl | (simp at h)
      | _ :: _ :: _ :: _, h => simp at h <;> omega)

end Sys2Proof
end

