-- ==== Sys2Proof/Laws/State.lean ====
section
/-! SUPPORT. Every field of the state after every update, so that no proof unfolds a record update. -/

namespace Sys2Proof.Machine

/-! ### setReg -/

@[simp] theorem State.setReg_x (s : State) (r : Reg) (v : Int) : (s.setReg r v).x = s.x.set r.val (word32 v) r.isLt := rfl
@[simp] theorem State.setReg_pc (s : State) (r : Reg) (v : Int) : (s.setReg r v).pc = s.pc := rfl
@[simp] theorem State.setReg_buf (s : State) (r : Reg) (v : Int) : (s.setReg r v).buf = s.buf := rfl
@[simp] theorem State.setReg_len (s : State) (r : Reg) (v : Int) : (s.setReg r v).len = s.len := rfl
@[simp] theorem State.setReg_rem (s : State) (r : Reg) (v : Int) : (s.setReg r v).rem = s.rem := rfl
@[simp] theorem State.setReg_flag (s : State) (r : Reg) (v : Int) : (s.setReg r v).flag = s.flag := rfl
@[simp] theorem State.setReg_run (s : State) (r : Reg) (v : Int) : (s.setReg r v).run = s.run := rfl
@[simp] theorem State.setReg_armed (s : State) (r : Reg) (v : Int) : (s.setReg r v).armed = s.armed := rfl

/-! ### setRem -/

@[simp] theorem State.setRem_x (s : State) (w : Word) : (s.setRem w).x = s.x := rfl
@[simp] theorem State.setRem_pc (s : State) (w : Word) : (s.setRem w).pc = s.pc := rfl
@[simp] theorem State.setRem_buf (s : State) (w : Word) : (s.setRem w).buf = s.buf := rfl
@[simp] theorem State.setRem_len (s : State) (w : Word) : (s.setRem w).len = s.len := rfl
@[simp] theorem State.setRem_rem (s : State) (w : Word) : (s.setRem w).rem = w := rfl
@[simp] theorem State.setRem_flag (s : State) (w : Word) : (s.setRem w).flag = s.flag := rfl
@[simp] theorem State.setRem_run (s : State) (w : Word) : (s.setRem w).run = s.run := rfl
@[simp] theorem State.setRem_armed (s : State) (w : Word) : (s.setRem w).armed = s.armed := rfl

/-! ### setFlag -/

@[simp] theorem State.setFlag_x (s : State) (b : Bool) : (s.setFlag b).x = s.x := rfl
@[simp] theorem State.setFlag_pc (s : State) (b : Bool) : (s.setFlag b).pc = s.pc := rfl
@[simp] theorem State.setFlag_buf (s : State) (b : Bool) : (s.setFlag b).buf = s.buf := rfl
@[simp] theorem State.setFlag_len (s : State) (b : Bool) : (s.setFlag b).len = s.len := rfl
@[simp] theorem State.setFlag_rem (s : State) (b : Bool) : (s.setFlag b).rem = s.rem := rfl
@[simp] theorem State.setFlag_flag (s : State) (b : Bool) : (s.setFlag b).flag = b := rfl
@[simp] theorem State.setFlag_run (s : State) (b : Bool) : (s.setFlag b).run = s.run := rfl
@[simp] theorem State.setFlag_armed (s : State) (b : Bool) : (s.setFlag b).armed = s.armed := rfl

/-! ### complete -/

@[simp] theorem State.complete_x (s : State) (p : Nat) : (s.complete p).x = s.x := rfl
@[simp] theorem State.complete_pc (s : State) (p : Nat) : (s.complete p).pc = p := rfl
@[simp] theorem State.complete_buf (s : State) (p : Nat) : (s.complete p).buf = s.buf := rfl
@[simp] theorem State.complete_len (s : State) (p : Nat) : (s.complete p).len = s.len := rfl
@[simp] theorem State.complete_rem (s : State) (p : Nat) : (s.complete p).rem = s.rem := rfl
@[simp] theorem State.complete_flag (s : State) (p : Nat) : (s.complete p).flag = s.flag := rfl
@[simp] theorem State.complete_run (s : State) (p : Nat) : (s.complete p).run = .running := rfl
@[simp] theorem State.complete_armed (s : State) (p : Nat) : (s.complete p).armed = s.armed := rfl

/-! ### halt -/

@[simp] theorem State.halt_x (s : State) : (s.halt).x = s.x := rfl
@[simp] theorem State.halt_pc (s : State) : (s.halt).pc = s.pc := rfl
@[simp] theorem State.halt_buf (s : State) : (s.halt).buf = s.buf := rfl
@[simp] theorem State.halt_len (s : State) : (s.halt).len = s.len := rfl
@[simp] theorem State.halt_rem (s : State) : (s.halt).rem = s.rem := rfl
@[simp] theorem State.halt_flag (s : State) : (s.halt).flag = s.flag := rfl
@[simp] theorem State.halt_run (s : State) : (s.halt).run = .halted := rfl
@[simp] theorem State.halt_armed (s : State) : (s.halt).armed = false := rfl

/-! ### completeHalted -/

@[simp] theorem State.completeHalted_x (s : State) (p : Nat) : (s.completeHalted p).x = s.x := rfl
@[simp] theorem State.completeHalted_pc (s : State) (p : Nat) : (s.completeHalted p).pc = p := rfl
@[simp] theorem State.completeHalted_buf (s : State) (p : Nat) : (s.completeHalted p).buf = s.buf := rfl
@[simp] theorem State.completeHalted_len (s : State) (p : Nat) : (s.completeHalted p).len = s.len := rfl
@[simp] theorem State.completeHalted_rem (s : State) (p : Nat) : (s.completeHalted p).rem = s.rem := rfl
@[simp] theorem State.completeHalted_flag (s : State) (p : Nat) : (s.completeHalted p).flag = s.flag := rfl
@[simp] theorem State.completeHalted_run (s : State) (p : Nat) : (s.completeHalted p).run = .halted := rfl
@[simp] theorem State.completeHalted_armed (s : State) (p : Nat) : (s.completeHalted p).armed = false := rfl

/-! ### append -/

@[simp] theorem State.append_x (s : State) (bs : List Byte) : (s.append bs).x = s.x := rfl
@[simp] theorem State.append_pc (s : State) (bs : List Byte) : (s.append bs).pc = s.pc := rfl
@[simp] theorem State.append_buf (s : State) (bs : List Byte) : (s.append bs).buf = s.buf.writeBytes s.len bs := rfl
@[simp] theorem State.append_len (s : State) (bs : List Byte) : (s.append bs).len = s.len + bs.length := rfl
@[simp] theorem State.append_rem (s : State) (bs : List Byte) : (s.append bs).rem = s.rem := rfl
@[simp] theorem State.append_flag (s : State) (bs : List Byte) : (s.append bs).flag = s.flag := rfl
@[simp] theorem State.append_run (s : State) (bs : List Byte) : (s.append bs).run = s.run := rfl
@[simp] theorem State.append_armed (s : State) (bs : List Byte) : (s.append bs).armed = (s.armed || !bs.isEmpty) := rfl

/-! ### placeAtPc -/

@[simp] theorem State.placeAtPc_x (s : State) (bs : List Byte) : (s.placeAtPc bs).x = s.x := rfl
@[simp] theorem State.placeAtPc_pc (s : State) (bs : List Byte) : (s.placeAtPc bs).pc = s.pc := rfl
@[simp] theorem State.placeAtPc_buf (s : State) (bs : List Byte) : (s.placeAtPc bs).buf = s.buf.writeBytes s.pc bs := rfl
@[simp] theorem State.placeAtPc_len (s : State) (bs : List Byte) : (s.placeAtPc bs).len = max s.len (s.pc + bs.length) := rfl
@[simp] theorem State.placeAtPc_rem (s : State) (bs : List Byte) : (s.placeAtPc bs).rem = s.rem := rfl
@[simp] theorem State.placeAtPc_flag (s : State) (bs : List Byte) : (s.placeAtPc bs).flag = s.flag := rfl
@[simp] theorem State.placeAtPc_run (s : State) (bs : List Byte) : (s.placeAtPc bs).run = s.run := rfl
@[simp] theorem State.placeAtPc_armed (s : State) (bs : List Byte) : (s.placeAtPc bs).armed = (s.armed || s.run == .halted) := rfl

end Sys2Proof.Machine
end

