-- ==== Sys2Proof/Laws/Fetch.lean ====
section
/-! SUPPORT. The bytes a step sees, and what the phases before EXECUTE can answer. -/

namespace Sys2Proof.Machine

/-- How many bytes the window holds. -/
theorem length_window (s : State) (n a : Nat) : (s.window n a).length = min n (s.len - a) := by
  induction n generalizing a with
  | zero => simp [State.window]
  | succ n ih =>
    unfold State.window
    split
    · simp only [List.length_cons, ih]
      omega
    · simp only [List.length_nil]
      omega

/-- Which bytes the window holds. -/
theorem getElem?_window (s : State) (n a k : Nat) :
    (s.window n a)[k]? = if k < n ∧ a + k < s.len then some (s.byteAt (a + k)) else none := by
  induction n generalizing a k with
  | zero => simp [State.window]
  | succ n ih =>
    unfold State.window
    split
    · cases k with
      | zero => simp [*]
      | succ k => simp [ih, Nat.add_assoc, Nat.add_comm 1 k]
    · simp only [List.getElem?_nil]
      rw [if_neg (by omega)]

/-- A step goes on to EXECUTE with the instruction the decoder reads at `pc`, past RESUME_CHECK and END_CHECK. -/
theorem fetch_eq_instr {s : State} {i : Instr} :
    fetch s = .instr i ↔ s.blocked = false ∧ s.pc < s.len ∧ decode (s.window maxLength s.pc) = .ok i := by
  unfold fetch
  cases hb : s.blocked <;> simp only [Bool.false_eq_true, if_true, if_false]
  · by_cases hl : s.len ≤ s.pc
    · simp [hl, not_lt.mpr hl]
    · simp only [hl, if_false, not_le.mp hl, true_and]
      cases hd : decode (s.window maxLength s.pc) with
      | ok j => simp [fetchedOf]
      | error e => cases e <;> simp [fetchedOf]
  · simp

/-- A core is blocked when it is Halted and not armed. -/
theorem blocked_iff (s : State) : s.blocked = true ↔ s.run = .halted ∧ s.armed = false := by
  simp [State.blocked]

/-- With a byte at `pc`, a core that is not blocked goes on to the decoder. -/
theorem fetch_of_ready {s : State} (hb : s.blocked = false) (hl : s.pc < s.len) :
    fetch s = fetchedOf s.pc (decode (s.window maxLength s.pc)) := by
  simp [fetch, hb, not_le.mpr hl]

/-- The window from an offset below `len` starts with the byte there. -/
theorem window_cons (s : State) (n a : Nat) (h : a < s.len) :
    s.window (n + 1) a = s.byteAt a :: s.window n (a + 1) := by
  conv => lhs; unfold State.window
  rw [if_pos h]

/-- The window at an offset with two bytes. -/
theorem window_two {s : State} (h : s.pc + 2 ≤ s.len) :
    s.window maxLength s.pc = s.byteAt s.pc :: s.byteAt (s.pc + 1) :: s.window 2 (s.pc + 2) := by
  simp only [maxLength]
  rw [window_cons _ _ _ (by omega), window_cons _ _ _ (by omega)]

/-- The window at an offset with four bytes. -/
theorem window_four {s : State} (h : s.pc + 4 ≤ s.len) :
    s.window maxLength s.pc =
      [s.byteAt s.pc, s.byteAt (s.pc + 1), s.byteAt (s.pc + 2), s.byteAt (s.pc + 3)] := by
  simp only [maxLength]
  rw [window_cons _ _ _ (by omega), window_cons _ _ _ (by omega), window_cons _ _ _ (by omega),
    window_cons _ _ _ (by omega)]
  simp [State.window]

end Sys2Proof.Machine
end

