-- ==== Sys2Proof/Laws/Memory.lean ====
section
/-! SUPPORT. The program buffer's bytes: every memory operation keeps the canonical form, a write is read back, and every
other address keeps its byte. -/

namespace Sys2Proof.Machine

/-- Every address of an entry is at least `n`. -/
abbrev Memory.From (n : Nat) (m : Memory) : Prop := ∀ c ∈ m, n ≤ c.1

/-- An address below every entry is unlisted. -/
theorem Memory.read_of_from {m : Memory} {a n : Nat} (h : Memory.From n m) (ha : a < n) : m.read a = Memory.unlisted := by
  induction m with
  | nil => rfl
  | cons c t ih =>
    obtain ⟨b, w⟩ := c
    have hb : n ≤ b := h (b, w) (by simp)
    simp only [Memory.read, if_neg (by omega : ¬ a = b)]
    exact ih fun c hc => h c (by simp [hc])

/-- The tail of a canonical memory is canonical and lies above the head. -/
theorem Memory.wf_cons {c : Host.Cell} {t : Memory} :
    Memory.wf (c :: t) ↔ c.2 ≠ Memory.unlisted ∧ Memory.From (c.1 + 1) t ∧ Memory.wf t := by
  simp only [Memory.wf, List.pairwise_cons, List.mem_cons, forall_eq_or_imp, Memory.From, Nat.succ_le_iff]
  tauto

/-- Putting an entry below all others keeps the canonical form. -/
theorem Memory.cons_wf {t : Memory} {a : Nat} {v : Byte} (h : t.wf) (ha : Memory.From (a + 1) t) :
    (Memory.cons a v t).wf := by
  unfold Memory.cons
  split
  · exact h
  · exact Memory.wf_cons.mpr ⟨by simpa using ‹_›, ha, h⟩

/-- The entries of a memory with one put in front. -/
theorem Memory.mem_cons {t : Memory} {a : Nat} {v : Byte} {c : Host.Cell} (h : c ∈ Memory.cons a v t) :
    c.1 = a ∨ c ∈ t := by
  unfold Memory.cons at h
  split at h
  · exact .inr h
  · rcases List.mem_cons.mp h with rfl | h
    · exact .inl rfl
    · exact .inr h

/-- The entries after a write: the address written, or entries that stood before. -/
theorem Memory.mem_write {m : Memory} {a : Nat} {v : Byte} {c : Host.Cell} (h : c ∈ m.write a v) : c.1 = a ∨ c ∈ m := by
  induction m with
  | nil => exact Memory.mem_cons h
  | cons d t ih =>
    obtain ⟨b, w⟩ := d
    simp only [Memory.write] at h
    split at h
    · exact Memory.mem_cons h
    · split at h
      · exact (Memory.mem_cons h).imp_right fun h => by simp [h]
      · rcases List.mem_cons.mp h with rfl | h
        · exact .inr (by simp)
        · exact (ih h).imp_right fun h => by simp [h]

/-- A write keeps the canonical form. -/
theorem Memory.write_wf {m : Memory} (h : m.wf) (a : Nat) (v : Byte) : (m.write a v).wf := by
  induction m with
  | nil => exact Memory.cons_wf h (by simp)
  | cons c t ih =>
    obtain ⟨b, w⟩ := c
    obtain ⟨hw, hf, ht⟩ := Memory.wf_cons.mp h
    simp only [Memory.write]
    split
    · refine Memory.cons_wf h fun c hc => ?_
      rcases List.mem_cons.mp hc with rfl | hc
      · simpa using ‹a < b›
      · have := hf c hc
        omega
    · split
      · subst a
        exact Memory.cons_wf ht hf
      · refine Memory.wf_cons.mpr ⟨hw, fun c hc => ?_, ih ht⟩
        rcases Memory.mem_write hc with h | h
        · simp only at h ⊢
          omega
        · exact hf c h

/-- Reading a memory with an entry put below all others. -/
theorem Memory.read_cons {t : Memory} {a : Nat} {v : Byte} (ha : Memory.From (a + 1) t) (q : Nat) :
    (Memory.cons a v t).read q = if q = a then v else t.read q := by
  unfold Memory.cons
  split
  · split
    · subst q
      rw [Memory.read_of_from ha (by omega)]
      exact (by assumption : v = _).symm
    · rfl
  · rfl

/-- A write is read back, and every other address keeps its byte. -/
theorem Memory.read_write {m : Memory} (h : m.wf) (a : Nat) (v : Byte) (q : Nat) :
    (m.write a v).read q = if q = a then v else m.read q := by
  induction m with
  | nil => exact Memory.read_cons (by simp) q
  | cons c t ih =>
    obtain ⟨b, w⟩ := c
    obtain ⟨hw, hf, ht⟩ := Memory.wf_cons.mp h
    simp only [Memory.write]
    split
    · rw [Memory.read_cons]
      intro c hc
      rcases List.mem_cons.mp hc with rfl | hc
      · simpa using ‹a < b›
      · have := hf c hc
        omega
    · split
      · subst a
        rw [Memory.read_cons hf]
        simp only [Memory.read]
        split <;> simp [*]
      · simp only [Memory.read, ih ht]
        split
        · rw [if_neg (by omega)]
        · rfl

/-- Writing bytes keeps the canonical form. -/
theorem Memory.writeBytes_wf {m : Memory} (h : m.wf) (a : Nat) (bs : List Byte) : (m.writeBytes a bs).wf := by
  induction bs generalizing m a with
  | nil => exact h
  | cons v vs ih => exact ih (Memory.write_wf h a v) (a + 1)

/-- The entries after writing bytes: the addresses written, or entries that stood before. -/
theorem Memory.mem_writeBytes {m : Memory} {a : Nat} {bs : List Byte} {c : Host.Cell} (h : c ∈ m.writeBytes a bs) :
    (a ≤ c.1 ∧ c.1 < a + bs.length) ∨ c ∈ m := by
  induction bs generalizing m a with
  | nil => exact .inr h
  | cons v vs ih =>
    simp only [List.length_cons]
    rcases ih h with h | h
    · exact .inl (by omega)
    · rcases Memory.mem_write h with h | h
      · exact .inl (by omega)
      · exact .inr h

/-- The bytes written are read back in order, and every address outside them keeps its byte. -/
theorem Memory.read_writeBytes {m : Memory} (h : m.wf) (a : Nat) (bs : List Byte) (q : Nat) :
    (m.writeBytes a bs).read q = if a ≤ q ∧ q < a + bs.length then bs.getD (q - a) 0 else m.read q := by
  induction bs generalizing m a with
  | nil => simp [Memory.writeBytes]
  | cons v vs ih =>
    simp only [Memory.writeBytes, List.length_cons]
    rw [ih (Memory.write_wf h a v), Memory.read_write h]
    by_cases hq : q = a
    · subst q
      simp
    · by_cases h1 : a + 1 ≤ q ∧ q < a + 1 + vs.length
      · rw [if_pos h1, if_pos (by omega), show q - a = (q - (a + 1)) + 1 by omega]
        simp
      · rw [if_neg h1, if_neg hq, if_neg (by omega)]

/-- Reset's memory is canonical. -/
theorem reset_buf_wf : State.reset.buf.wf := by decide

end Sys2Proof.Machine
end

