-- ==== Sys2Proof/Laws/Ops.lean ====
section
/-! SUPPORT. What each shared operation can answer: register reads after writes, the range check, the jump-target check,
raising a fault, writing a comparison's result. -/

namespace Sys2Proof.Machine

/-! ### Registers -/

/-- The register file after a write holds the written word at the register and what it held elsewhere. -/
theorem get_setReg (s : State) (r q : Reg) (v : Int) :
    (s.setReg r v).x.get q = if q = r then word32 v else s.x.get q := by
  simp only [State.setReg_x, Vector.get_eq_getElem, Vector.getElem_set, Fin.ext_iff]
  by_cases h : q.val = r.val
  · simp [h]
  · simp [h, Ne.symm h]

/-- A register other than the one written reads as before. -/
theorem reg_setReg_ne (s : State) {r q : Reg} (v : Int) (h : q ≠ r) : (s.setReg r v).reg q = s.reg q := by
  simp only [State.reg, get_setReg, if_neg h]

/-- The range check says what R8 says. -/
theorem inS32_iff (n : Int) : inS32 n = true ↔ -2147483648 ≤ n ∧ n ≤ 2147483647 := by
  simp [inS32]

/-- A value in the signed range comes back from the word that holds it. -/
theorem s32_word32 {v : Int} (h : inS32 v = true) : s32 (word32 v) = v := by
  rw [inS32_iff] at h
  exact BitVec.toInt_ofInt_eq_self (by decide) (by norm_num; omega) (by norm_num; omega)

/-- The written register reads as the value written, when that is in range. -/
theorem reg_setReg_self (s : State) (r : Reg) {v : Int} (h : inS32 v = true) : (s.setReg r v).reg r = v := by
  simp only [State.reg, get_setReg, if_pos, s32_word32 h]

/-- Every register value is in the signed 32-bit range (R21). -/
theorem reg_inS32 (s : State) (r : Reg) : inS32 (s.reg r) = true := by
  rw [inS32_iff]
  have h1 := BitVec.le_toInt (s.x.get r)
  have h2 := BitVec.toInt_lt (x := s.x.get r)
  simp only [State.reg, s32]
  norm_num at h1 h2
  omega

/-- Register reads look at the register file alone. -/
theorem reg_congr {s t : State} (h : t.x = s.x) (r : Reg) : t.reg r = s.reg r := by
  simp [State.reg, h]

@[simp] theorem reg_setRem (s : State) (w : Word) (r : Reg) : (s.setRem w).reg r = s.reg r := rfl
@[simp] theorem reg_setFlag (s : State) (b : Bool) (r : Reg) : (s.setFlag b).reg r = s.reg r := rfl
@[simp] theorem reg_complete (s : State) (p : Nat) (r : Reg) : (s.complete p).reg r = s.reg r := rfl
@[simp] theorem reg_halt (s : State) (r : Reg) : s.halt.reg r = s.reg r := rfl
@[simp] theorem reg_completeHalted (s : State) (p : Nat) (r : Reg) : (s.completeHalted p).reg r = s.reg r := rfl
@[simp] theorem reg_append (s : State) (bs : List Byte) (r : Reg) : (s.append bs).reg r = s.reg r := rfl

/-- An immediate's value is its unsigned reading (R67). -/
theorem immValue_eq (v : Imm) : immValue v = (v.toNat : Int) := by
  have h := v.isLt
  simp only [immValue, s32, BitVec.zeroExtend]
  rw [BitVec.toInt_eq_toNat_of_lt] <;> rw [BitVec.toNat_setWidth] <;> rw [Nat.mod_eq_of_lt] <;> omega

/-- An immediate's value is in the signed range. -/
theorem immValue_inS32 (v : Imm) : inS32 (immValue v) = true := by
  have h := v.isLt
  rw [inS32_iff, immValue_eq]
  omega

/-! ### Shared operations -/

/-- Raising a fault gives no next state. -/
theorem raise_ne_next (k : FaultRecord → Fault) (op : Opcode) (o : Option (Nat × Byte)) (s t : State) :
    raise k op o s ≠ .next t := by
  simp [raise]

/-- What writing a checked result does when it completes. -/
theorem writeChecked_next {op : Opcode} {rd : Reg} {v : Int} {s t : State} (h : writeChecked op rd v s = .next t) :
    inS32 v = true ∧ t = (s.setReg rd v).complete (s.nextPc op) := by
  unfold writeChecked at h
  split at h
  · exact ⟨‹_›, by simpa using h.symm⟩
  · exact (raise_ne_next _ _ _ _ _ h).elim

/-- What a checked jump does when it completes. -/
theorem checkTarget_next {op : Opcode} {ra : Reg} {v : Int} {s t : State} (h : checkTarget op ra v s = .next t) :
    0 ≤ v ∧ v ≤ s.len ∧ t = s.complete v.toNat := by
  unfold checkTarget at h
  split at h
  · exact (raise_ne_next _ _ _ _ _ h).elim
  · split at h
    · exact (raise_ne_next _ _ _ _ _ h).elim
    · exact ⟨by omega, by omega, by simpa using h.symm⟩

/-- A legal target is taken. -/
theorem checkTarget_of_legal {op : Opcode} {ra : Reg} {v : Int} {s : State} (h0 : 0 ≤ v) (h1 : v ≤ s.len) :
    checkTarget op ra v s = .next (s.complete v.toNat) := by
  simp [checkTarget, not_lt.mpr h0, not_lt.mpr h1]

/-- A target below 0 raises JumpBelowZero. -/
theorem checkTarget_of_below {op : Opcode} {ra : Reg} {v : Int} {s : State} (h : v < 0) :
    checkTarget op ra v s = raise .jumpBelowZero op (some (1, regByte ra)) s := by
  simp [checkTarget, h]

/-- A target above `len` raises JumpBeyondEnd. -/
theorem checkTarget_of_beyond {op : Opcode} {ra : Reg} {v : Int} {s : State} (h : (s.len : Int) < v) :
    checkTarget op ra v s = raise .jumpBeyondEnd op (some (1, regByte ra)) s := by
  simp [checkTarget, h, show ¬ v < 0 by omega]

/-- A result in range is written. -/
theorem writeChecked_of_range {op : Opcode} {rd : Reg} {v : Int} {s : State} (h : inS32 v = true) :
    writeChecked op rd v s = .next ((s.setReg rd v).complete (s.nextPc op)) := by
  simp [writeChecked, h]

/-- A result out of range raises ArithmeticOverflow. -/
theorem writeChecked_of_overflow {op : Opcode} {rd : Reg} {v : Int} {s : State} (h : inS32 v = false) :
    writeChecked op rd v s = raise .arithmeticOverflow op none s := by
  simp [writeChecked, h]

/-- What a comparison does when it completes, which is always. -/
theorem compareWith_next {op : Opcode} {rel : Int → Int → Bool} {a b : Reg} {s t : State}
    (h : compareWith op rel a b s = .next t) :
    t = (s.setFlag (rel (s.reg a) (s.reg b))).complete (s.nextPc op) := by
  simpa [compareWith] using h.symm

end Sys2Proof.Machine
end

