-- ==== Sys2Proof/Laws/PerInstr.lean ====
section
/-! SUPPORT. Statements about every instruction as syntax, one lemma per constructor. -/

namespace Sys2Proof.Laws.EncodedLength

/-- The encoder's output has exactly the length the decoder consumes (30_encoding.md R70, R82), with every `Config`. -/
def Statement (i : Instr) : Prop := ∀ c : Config, (encodeWith c i).length = i.length

/-- The operand bytes of a three-register instruction. -/
theorem length_encodeFRRR (c : Config) (rs1 rs2 rd : Reg) : (encodeFRRR c rs1 rs2 rd).length = 3 := by
  unfold encodeFRRR
  split <;> rfl

theorem load (rd : Reg) (imm16 : Imm) : Statement (.load rd imm16) := fun _ => rfl
theorem add (rs1 rs2 rd : Reg) : Statement (.add rs1 rs2 rd) := fun c => congrArg Nat.succ (length_encodeFRRR c rs1 rs2 rd)
theorem sub (rs1 rs2 rd : Reg) : Statement (.sub rs1 rs2 rd) := fun c => congrArg Nat.succ (length_encodeFRRR c rs1 rs2 rd)
theorem mul (rs1 rs2 rd : Reg) : Statement (.mul rs1 rs2 rd) := fun c => congrArg Nat.succ (length_encodeFRRR c rs1 rs2 rd)
theorem div (rs1 rs2 rd : Reg) : Statement (.div rs1 rs2 rd) := fun c => congrArg Nat.succ (length_encodeFRRR c rs1 rs2 rd)
theorem hlt : Statement .hlt := fun _ => rfl
theorem jmp (ra : Reg) : Statement (.jmp ra) := fun _ => rfl
theorem jmpf (ra : Reg) : Statement (.jmpf ra) := fun _ => rfl
theorem jmpb (ra : Reg) : Statement (.jmpb ra) := fun _ => rfl
theorem eq (rs1 rs2 : Reg) (pad : Byte) : Statement (.eq rs1 rs2 pad) := fun _ => rfl
theorem neq (rs1 rs2 : Reg) (pad : Byte) : Statement (.neq rs1 rs2 pad) := fun _ => rfl
theorem gte (rs1 rs2 : Reg) (pad : Byte) : Statement (.gte rs1 rs2 pad) := fun _ => rfl
theorem lte (rs1 rs2 : Reg) (pad : Byte) : Statement (.lte rs1 rs2 pad) := fun _ => rfl
theorem lt (rs1 rs2 : Reg) (pad : Byte) : Statement (.lt rs1 rs2 pad) := fun _ => rfl
theorem gt (rs1 rs2 : Reg) (pad : Byte) : Statement (.gt rs1 rs2 pad) := fun _ => rfl
theorem jmpe (ra : Reg) : Statement (.jmpe ra) := fun _ => rfl
theorem illegal (b0 : Byte) : Statement (.illegal b0) := fun _ => rfl

end Sys2Proof.Laws.EncodedLength
end

