-- ==== Sys2Proof/Laws/Step.lean ====
section
/-! SUPPORT. What a step can do, said once: every statement about steps is derived from these. -/

namespace Sys2Proof.Machine

/-- If a step answers a next state, it was one of three: the core was blocked, the program had ended, or an instruction
was fetched and completed. -/
theorem step_next_cases {s t : State} (h : step s = .next t) :
    (fetch s = .notResumed ∧ t = s) ∨ (fetch s = .endOfProgram ∧ t = s.halt) ∨
      ∃ i, fetch s = .instr i ∧ exec i s = .next t := by
  unfold step at h
  split at h
  · exact .inl ⟨‹_›, by simpa using h.symm⟩
  · exact .inr (.inl ⟨‹_›, by simpa using h.symm⟩)
  · exact absurd h (by simp)
  · exact .inr (.inr ⟨_, ‹_›, h⟩)

/-- If a step answers a fault, the fetch raised it or the instruction did. -/
theorem step_fault_cases {s : State} {f : Fault} (h : step s = .fault f) :
    fetch s = .fault f ∨ ∃ i, fetch s = .instr i ∧ exec i s = .fault f := by
  unfold step at h
  split at h
  · exact absurd h (by simp)
  · exact absurd h (by simp)
  · exact .inl (by rw [‹fetch s = _›]; simpa using h)
  · exact .inr ⟨_, ‹_›, h⟩

/-- A step whose fetch gave an instruction is that instruction. -/
theorem step_of_instr {s : State} {i : Instr} (h : fetch s = .instr i) : step s = exec i s := by
  simp [step, h]

/-- An instruction that completes leaves the buffer alone, and halts the core exactly when it has a halt reason. -/
theorem exec_next {i : Instr} {s t : State} (h : exec i s = .next t) :
    t.buf = s.buf ∧ t.len = s.len ∧ (haltReason i = none → t.run = .running ∧ t.armed = s.armed) ∧
      (haltReason i ≠ none → t.run = .halted ∧ t.armed = false) := by
  cases i <;> simp only [exec, execLoad, execAdd, execSub, execMul, execHlt, execIllegal, execEq, execNeq, execGte,
    execLte, execLt, execGt, execDiv, execJmp, execJmpf, execJmpb, execJmpe] at h
  case load => obtain rfl := (by simpa using h.symm : t = _); simp [haltReason]
  case hlt => obtain rfl := (by simpa using h.symm : t = _); simp [haltReason]
  case illegal => obtain rfl := (by simpa using h.symm : t = _); simp [haltReason]
  case add => obtain ⟨-, rfl⟩ := writeChecked_next h; simp [haltReason]
  case sub => obtain ⟨-, rfl⟩ := writeChecked_next h; simp [haltReason]
  case mul => obtain ⟨-, rfl⟩ := writeChecked_next h; simp [haltReason]
  case div =>
    split at h
    · exact absurd h (raise_ne_next _ _ _ _ _)
    · split at h
      · obtain rfl := (by simpa using h.symm : t = _); simp [haltReason]
      · exact absurd h (raise_ne_next _ _ _ _ _)
  case jmp => obtain ⟨_, _, rfl⟩ := checkTarget_next h; simp [haltReason]
  case jmpf =>
    split at h
    · exact absurd h (raise_ne_next _ _ _ _ _)
    · obtain ⟨_, _, rfl⟩ := checkTarget_next h; simp [haltReason]
  case jmpb =>
    split at h
    · exact absurd h (raise_ne_next _ _ _ _ _)
    · obtain ⟨_, _, rfl⟩ := checkTarget_next h; simp [haltReason]
  case jmpe =>
    split at h
    · obtain ⟨_, _, rfl⟩ := checkTarget_next h; simp [haltReason]
    · obtain rfl := (by simpa using h.symm : t = _); simp [haltReason]
  all_goals obtain rfl := compareWith_next h; simp [haltReason]

/-- Only a `runToHalt` whose fuel ended has not completed. -/
theorem command_stillRunning {cap : Nat} {c : Command} {s t : State} (h : command cap c s = (.stillRunning, t)) :
    ∃ fuel, c = .runToHalt fuel ∧ runToHalt fuel s = (none, t) := by
  unfold command at h
  split at h
  · simp at h
  · split at h
    · simp at h
    · rename_i hr
      obtain rfl : _ = t := by simpa using h
      exact ⟨_, rfl, hr⟩
  · split at h <;> simp at h
  · simp at h

/-- A command that has not completed ends its session. -/
theorem session_of_stillRunning {cap : Nat} {c : Command} {cs : List Command} {s t : State}
    (h : command cap c s = (.stillRunning, t)) : session cap (c :: cs) s = ([.stillRunning], t) := by
  simp [session, h]

/-- After a command that completed, its session goes on from the state it left. -/
theorem session_of_completed {cap : Nat} {c : Command} {cs : List Command} {s t : State} {r : Reply}
    (h : command cap c s = (r, t)) (hr : r ≠ .stillRunning) :
    session cap (c :: cs) s = (r :: (session cap cs t).1, (session cap cs t).2) := by
  cases r <;> first
    | exact absurd rfl hr
    | simp [session, h]

end Sys2Proof.Machine
end

