-- ==== Sys2Proof/Tests/Slice0.lean ====
section
/-! SUPPORT. Tests of the model, each on one step of a small state: the words of 30_encoding.md R62 and R63, rows of
95_test_vectors.md, and for every obligation with hypotheses a witness that meets them (named witness_<obligation>). -/

open Sys2Proof Sys2Proof.Machine Sys2Proof.Claims

namespace Sys2Proof.Tests

/-! ### Helpers -/

/-- The conventions of 95_test_vectors.md: reset, then one append of the bytes. -/
def prog (bytes : List Byte) : State := State.reset.append bytes

/-- `prog` with x0 and x1 set. -/
def prog2 (bytes : List Byte) (x0 x1 : Int) : State := ((prog bytes).setReg 0 x0).setReg 1 x1

/-- The next state, if the answer is one. -/
def after : Result → Option State
  | .next t => some t
  | .fault _ | .refused _ => none

/-- The fault, if the answer is one. -/
def faultOf : Result → Option Fault
  | .fault f => some f
  | .next _ | .refused _ => none

/-- An answer with a next state is that next state. -/
theorem exists_next {r : Result} (h : (after r).isSome = true) : ∃ t, r = .next t := by
  cases r with
  | next t => exact ⟨t, rfl⟩
  | fault f => exact absurd h (by simp [after])
  | refused q => exact absurd h (by simp [after])

/-- An answer with a fault is that fault. -/
theorem eq_fault {r : Result} {f : Fault} (h : faultOf r = some f) : r = .fault f := by
  cases r with
  | next t => exact absurd h (by simp [faultOf])
  | fault g => exact congrArg _ (Option.some.inj h)
  | refused q => exact absurd h (by simp [faultOf])

/-- A core with a byte at `pc` that is Running or armed is ready. -/
theorem ready {s : State} (h : s.blocked = false) (hl : s.pc < s.len) : Ready s := by
  refine ⟨?_, hl⟩
  rintro ⟨h1, h2⟩
  simp [State.blocked, h1, h2] at h

/-! ### Well-formedness -/

/-- ILLEGAL with an opcode byte of a real opcode is ill formed (R64). -/
theorem test_wellFormed_refuses : (Instr.illegal 15).wellFormed = false ∧ (Instr.illegal 5).wellFormed = false := by decide

/-- The first and last illegal bytes, and the others' operands at their ends, are well formed. -/
theorem test_wellFormed_accepts : (Instr.illegal 16).wellFormed = true ∧ (Instr.illegal 255).wellFormed = true ∧
    (Instr.load 31 65535).wellFormed = true ∧ (Instr.eq 0 31 255).wellFormed = true := by decide

/-! ### Decoding: one word per constructor, written out from R62 and R63 -/

theorem test_word_load : decodeTableWord 32 0b00000000_00011111_00010010_00110100 = some (.load 31 0x1234) := by decide
theorem test_word_add : decodeTableWord 32 0b00000001_00000001_00000010_00000011 = some (.add 1 2 3) := by decide
theorem test_word_sub : decodeTableWord 32 0b00000010_00000001_00000010_00000011 = some (.sub 1 2 3) := by decide
theorem test_word_mul : decodeTableWord 32 0b00000011_00011111_00000010_00000000 = some (.mul 31 2 0) := by decide
theorem test_word_div : decodeTableWord 32 0b00000100_00000001_00000010_00011110 = some (.div 1 2 30) := by decide
theorem test_word_hlt : decodeTableWord 8 0b00000101 = some .hlt := by decide
theorem test_word_jmp : decodeTableWord 16 0b00000110_00000011 = some (.jmp 3) := by decide
theorem test_word_jmpf : decodeTableWord 16 0b00000111_00010000 = some (.jmpf 16) := by decide
theorem test_word_jmpb : decodeTableWord 16 0b00001000_00000010 = some (.jmpb 2) := by decide
theorem test_word_eq : decodeTableWord 32 0b00001001_00000001_00000010_11111111 = some (.eq 1 2 0xFF) := by decide
theorem test_word_neq : decodeTableWord 32 0b00001010_00000001_00000010_00000000 = some (.neq 1 2 0) := by decide
theorem test_word_gte : decodeTableWord 32 0b00001011_00000001_00000010_00100000 = some (.gte 1 2 0x20) := by decide
theorem test_word_lte : decodeTableWord 32 0b00001100_00000001_00000010_00000000 = some (.lte 1 2 0) := by decide
theorem test_word_lt : decodeTableWord 32 0b00001101_00000001_00000010_00000000 = some (.lt 1 2 0) := by decide
theorem test_word_gt : decodeTableWord 32 0b00001110_00000011_00000100_00000000 = some (.gt 3 4 0) := by decide
theorem test_word_jmpe : decodeTableWord 16 0b00001111_00011111 = some (.jmpe 31) := by decide
theorem test_word_illegal : decodeTableWord 8 0b11001000 = some (.illegal 200) ∧
    decodeTableWord 8 0b00010000 = some (.illegal 16) := by decide

/-- Refusals by name: a register byte above 31, too few bytes, no byte (R68, R104). -/
theorem test_decode_refusals :
    decode [0x09, 0x00, 0x20, 0x00] = .error (.badRegister 0x09 2 0x20) ∧
    decode [0x04, 0x28, 0x01] = .error (.truncated 0x04) ∧ decode [] = .error .noBytes := by decide

/-- With `ARITH_DEST_POS = 1` the first register byte is the destination (R72). -/
theorem test_dest_first : decodeWith { hwConfig with arithDestPos := .first } [0x01, 0x00, 0x01, 0x02] = .ok (.add 1 2 0) ∧
    encodeWith { hwConfig with arithDestPos := .first } (.add 1 2 0) = [0x01, 0x00, 0x01, 0x02] := by decide

/-- encode(decode(b)): b itself for a real code, 0xC8 for 0x10 (95_test_vectors.md). -/
theorem test_opcode_codes : encodeOpcode hwConfig (decodeOpcode hwConfig 0x0F) = 0x0F ∧
    encodeOpcode hwConfig (decodeOpcode hwConfig 0x10) = 0xC8 := by decide

/-- `withFetchWord` makes the next step run the word, from reset and from a Halted core. -/
theorem test_withFetchWord : (after (step (State.reset.withFetchWord 32 0x00000064))).map (fun t => (t.reg 0, t.pc)) = some (100, 4) ∧
    (after (step (State.reset.halt.withFetchWord 8 0x05))).map (fun t => (t.pc, t.run)) = some (1, .halted) := by decide

/-! ### One step: rows of 95_test_vectors.md -/

theorem test_load_is_unsigned : (after (step (prog [0x00, 0x05, 0xFF, 0xFF]))).map (fun t => (t.reg 5, t.pc)) =
    some (65535, 4) := by decide
theorem test_load_bad_register : step (prog [0x00, 0x20, 0x00, 0x01]) =
    .fault (.registerIndexOutOfRange ⟨0x00, 0, some (1, 0x20)⟩) := eq_fault (by decide)
theorem test_add_overflow : step (prog2 [0x01, 0x00, 0x01, 0x02] 2147483647 1) =
    .fault (.arithmeticOverflow ⟨0x01, 0, none⟩) := eq_fault (by decide)
theorem test_add_boundary : (after (step (prog2 [0x01, 0x00, 0x01, 0x02] (-2147483648) 2147483647))).map (·.reg 2) =
    some (-1) := by decide
theorem test_sub_negative : (after (step (prog2 [0x02, 0x00, 0x01, 0x02] 0 7))).map (·.reg 2) = some (-7) := by decide
theorem test_sub_overflow : step (prog2 [0x02, 0x00, 0x01, 0x02] 0 (-2147483648)) =
    .fault (.arithmeticOverflow ⟨0x02, 0, none⟩) := eq_fault (by decide)
theorem test_mul_boundary : (after (step (prog2 [0x03, 0x00, 0x01, 0x02] (-32768) 65536))).map (·.reg 2) =
    some (-2147483648) := by decide
theorem test_mul_overflow : step (prog2 [0x03, 0x00, 0x01, 0x02] 32768 65536) =
    .fault (.arithmeticOverflow ⟨0x03, 0, none⟩) := eq_fault (by decide)
theorem test_div_negative : (after (step (prog2 [0x04, 0x00, 0x01, 0x02] (-7) 2))).map (fun t => (t.reg 2, u32 t.rem)) =
    some (-3, 4294967295) := by decide
theorem test_div_checks_registers_first : step (prog2 [0x04, 0x00, 0x01, 0x28] 9 0) =
    .fault (.registerIndexOutOfRange ⟨0x04, 0, some (3, 0x28)⟩) := eq_fault (by decide)
theorem test_hlt_then_notResumed : (stepCommand (prog [0x05])).1 = .halted .hltExecuted ∧
    (stepCommand (stepCommand (prog [0x05])).2).1 = .halted .notResumed := by decide
theorem test_hlt_resumes : (stepCommand ((stepCommand (prog [0x05])).2.append [0x00, 0x03, 0x00, 0x09])).1 = .running := by
  decide
theorem test_jmp_to_end : (after (step (prog2 [0x06, 0x01, 0x05, 0x00] 0 4))).map (·.pc) = some 4 := by decide
theorem test_jmp_beyond_end : step (prog2 [0x06, 0x01, 0x05, 0x00] 0 5) =
    .fault (.jumpBeyondEnd ⟨0x06, 0, some (1, 0x01)⟩) := eq_fault (by decide)
theorem test_jmpf_distance : (after (step (prog2 [0x07, 0x00, 0x05, 0x05] 2 0))).map (·.pc) = some 4 := by decide
theorem test_jmpf_negative : step (prog2 [0x07, 0x00, 0x05, 0x05] (-1) 0) =
    .fault (.negativeJumpDistance ⟨0x07, 0, some (1, 0x00)⟩) := eq_fault (by decide)
theorem test_jmpb_to_itself : (after (step (prog2 [0x08, 0x00] 2 0))).map (·.pc) = some 0 := by decide
theorem test_jmpb_below_zero : step (prog2 [0x08, 0x00] 3 0) =
    .fault (.jumpBelowZero ⟨0x08, 0, some (1, 0x00)⟩) := eq_fault (by decide)

/-- The flag after `op 00 01 00`, for the opcodes 09 to 0E. -/
def flags (x0 x1 : Int) : List (Option Bool) :=
  [0x09, 0x0A, 0x0B, 0x0C, 0x0D, 0x0E].map fun op => (after (step (prog2 [op, 0x00, 0x01, 0x00] x0 x1))).map (·.flag)

theorem test_flags_equal : flags 4 4 = [some true, some false, some true, some true, some false, some false] := by decide
theorem test_flags_signed : flags (-1) 1 = [some false, some true, some false, some true, some true, some false] := by
  decide
theorem test_flags_ends : flags 2147483647 (-2147483648) =
    [some false, some true, some true, some false, some false, some true] := by decide

theorem test_jmpe_not_taken : (after (step (prog2 [0x0F, 0x00] (-1) 0))).map (·.pc) = some 2 := by decide
theorem test_jmpe_taken_faults : step ((prog2 [0x0F, 0x00] (-1) 0).setFlag true) =
    .fault (.jumpBelowZero ⟨0x0F, 0, some (1, 0x00)⟩) := eq_fault (by decide)
theorem test_illegal_takes_one_byte : (stepCommand (prog [0xFF, 0x00, 0x00, 0x00])).1 = .halted (.illegalOpcode 0xFF) ∧
    (stepCommand (prog [0xFF, 0x00, 0x00, 0x00])).2.pc = 1 := by decide

/-! ### Host commands, encoder and assembler: rows of 95_test_vectors.md -/

/-- `PROG_CAP = 4`: an append past it is rejected whole; an empty append does not arm the core. -/
theorem test_append_capacity : command 4 (.appendBytes [0x05, 0x05, 0x05]) (prog [0x05, 0x05]) =
      (.appendFault .capacityExceeded, prog [0x05, 0x05]) ∧
    (command 4 (.appendBytes [0x05, 0x05]) (prog [0x05, 0x05])).2.len = 4 ∧
    (command 4 (.appendBytes []) State.reset.halt).2.armed = false := by decide

/-- The reads return the committed values (R107). -/
theorem test_reads : hostRead (.reg 1) (prog2 [0x05] 1 (-9)) = .signed (-9) ∧ hostRead .len (prog [0x05]) = .unsigned 1 ∧
    hostRead .rem ((prog []).setRem 0xFFFFFFFF) = .unsigned 4294967295 := by decide

/-- R100: a read does not begin while a run has not completed; after a run that has, it does. -/
theorem test_session_waits :
    (session 9 [.runToHalt 1, .read (.reg 0)] (prog [0, 0, 0, 1, 0, 0, 0, 2, 5])).1 = [.stillRunning] ∧
    (session 9 [.runToHalt 3, .read (.reg 0)] (prog [0, 0, 0, 1, 0, 0, 0, 2, 5])).1 =
      [.outcome (.halted .hltExecuted), .value (.signed 2)] := by decide

theorem test_assemble_load : assembleLine hwConfig ['l', 'o', 'a', 'd', ' ', '$', '0', ' ', '#', '1', '0', '0'] =
    .ok [0x00, 0x00, 0x00, 0x64] := by rfl
theorem test_assemble_pad : assembleLine hwConfig ['e', 'q', '\t', '$', '0', ' ', ' ', '$', '1'] =
    .ok [0x09, 0x00, 0x01, 0x00] := by rfl
theorem test_assemble_unknown : assembleLine hwConfig ['f', 'o', 'o'] = .ok [0xC8] := by rfl
theorem test_assemble_refuses : assembleLine hwConfig ['j', 'm', 'p', ' ', '#', '4'] = .error (.parse .unparsable) ∧
    assembleLine hwConfig [] = .error (.parse .unparsable) := ⟨rfl, rfl⟩
theorem test_encoding_faults :
    encodeParsed hwConfig ⟨.register 1, none, none, none, none⟩ = .error .badOpcodeSlot ∧
    encodeParsed hwConfig ⟨.opcode .load, some (.register 0), some (.opcode .add), none, none⟩ = .error .badOperandSlot ∧
    encodeParsed hwConfig ⟨.opcode .hlt, none, none, none, some ['x']⟩ = .ok [0x05] := by decide

/-! ### Witnesses: states and operands that meet the hypotheses of each obligation -/

/-- For the statements about every lawful `Config`: the machine's own, and one with two codes swapped and the destination
first. -/
theorem witness_Lawful : hwConfig.Lawful ∧
    Config.Lawful { opcodeMap := [.add, .load] ++ defaultOpcodeMap.drop 2, arithDestPos := .first } := by decide

theorem witness_OpcodeByteDecodesTotally : hwConfig.Lawful ∧ (15 : Byte).toNat < hwConfig.opcodeMap.length := by decide
theorem witness_OpcodeEncodesToItsCode : hwConfig.Lawful ∧ Opcode.jmpe ≠ .illegal := by decide
theorem witness_OpcodeMapInverts : hwConfig.Lawful ∧ encodeOpcode hwConfig .gt = encodeOpcode hwConfig .gt ∧
    (15 : Byte).toNat < 16 ∧ ¬ (16 : Byte).toNat < 16 := by decide
theorem witness_DecodeOfEncodeIsTheInstruction : hwConfig.Lawful ∧ (Instr.eq 31 0 255).opcode ≠ .illegal := by decide
theorem witness_EncodeOfDecodeIsTheBytes : hwConfig.Lawful ∧
    decodeWith hwConfig [0x00, 0x1F, 0xFF, 0xFF, 0x05] = .ok (.load 31 65535) ∧
    decodeWith hwConfig [0x10] = .ok (.illegal 16) := by decide

/-- The first clause at byte value 32, in the last of three positions with 31 before it; the second at 31. -/
theorem witness_RegisterBytesAreValidated :
    (Ready (prog [0x01, 0x1F, 0x1F, 0x20]) ∧ decodeOpcode hwConfig (byte (prog [0x01, 0x1F, 0x1F, 0x20]) 0) = .add ∧
      (prog [0x01, 0x1F, 0x1F, 0x20]).pc + Opcode.add.length ≤ (prog [0x01, 0x1F, 0x1F, 0x20]).len ∧
      3 ∈ Opcode.add.format.regPositions ∧ 31 < (byte (prog [0x01, 0x1F, 0x1F, 0x20]) 3).toNat ∧
      ∀ j ∈ Opcode.add.format.regPositions, j < 3 → (byte (prog [0x01, 0x1F, 0x1F, 0x20]) j).toNat ≤ 31) ∧
    (Ready (prog [0x01, 0x1F, 0x1F, 0x1F]) ∧ decodeOpcode hwConfig (byte (prog [0x01, 0x1F, 0x1F, 0x1F]) 0) = .add ∧
      (prog [0x01, 0x1F, 0x1F, 0x1F]).pc + Opcode.add.length ≤ (prog [0x01, 0x1F, 0x1F, 0x1F]).len ∧
      ∀ k ∈ Opcode.add.format.regPositions, (byte (prog [0x01, 0x1F, 0x1F, 0x1F]) k).toNat ≤ 31) :=
  ⟨⟨ready (by decide) (by decide), by decide, by decide, by decide, by decide, by decide⟩,
    ⟨ready (by decide) (by decide), by decide, by decide, by decide⟩⟩

theorem witness_LoadImmediateIsBigEndianUnsigned : fetch (prog [0x00, 0x1F, 0xFF, 0xFF]) = .instr (.load 31 65535) := by
  decide

theorem witness_EncoderEmitsOperandsInOrder :
    OperandSlot (some (.register 31)) ∧ OperandSlot (some (.immediate 65535)) ∧ OperandSlot none :=
  ⟨fun _ h => (nomatch h), fun _ h => (nomatch h), fun _ h => (nomatch h)⟩

/-- Each clause: an operand token in the opcode slot; an opcode token in the third operand slot. -/
theorem witness_EncoderFaultsAreDistinct :
    (∀ op, (⟨.immediate 0, none, none, none, none⟩ : ParsedInstr).opcodeSlot ≠ .opcode op) ∧
    (⟨.opcode .hlt, none, none, some (.opcode .illegal), none⟩ : ParsedInstr).opcodeSlot = .opcode .hlt ∧
    (⟨.opcode .hlt, none, none, some (.opcode .illegal), none⟩ : ParsedInstr).operand3 = some (.opcode .illegal) :=
  ⟨fun _ h => (nomatch h), rfl, rfl⟩

/-- Both clauses, at pad byte 31 and at pad byte 32. -/
theorem witness_SignatureTableEncodesTheInstruction :
    parsedOf hwConfig (.eq 0 1 31) =
      some ⟨.opcode .eq, some (.register 0), some (.register 1), some (.register 31), none⟩ ∧
    parsedOf hwConfig (.eq 0 1 32) = none ∧ 31 < (32 : Byte).toNat := by decide

theorem witness_AcceptedLinesAreWholeInstructions : hwConfig.Lawful ∧
    assembleLine hwConfig ['h', 'l', 't'] = .ok [0x05] := ⟨by decide, rfl⟩

theorem witness_SpellingAssemblesBack : hwConfig.Lawful ∧ (Instr.gt 31 0 0).opcode ≠ .illegal ∧
    ∀ rs1 rs2 pad, (Instr.gt 31 0 0 = .eq rs1 rs2 pad ∨ Instr.gt 31 0 0 = .neq rs1 rs2 pad ∨
      Instr.gt 31 0 0 = .gte rs1 rs2 pad ∨ Instr.gt 31 0 0 = .lte rs1 rs2 pad ∨ Instr.gt 31 0 0 = .lt rs1 rs2 pad ∨
      Instr.gt 31 0 0 = .gt rs1 rs2 pad) → pad = 0 := by
  refine ⟨by decide, by decide, ?_⟩
  rintro rs1 rs2 pad (h | h | h | h | h | h) <;> cases h
  rfl

/-- Results at both ends of the range, for each of the three instructions. -/
theorem witness_AddSubMulWriteTheExactResult :
    (Instr.add 0 1 2 = .add 0 1 2 ∧ InRange ((prog2 [] 2147483646 1).reg 0 + (prog2 [] 2147483646 1).reg 1)) ∧
    (Instr.sub 0 1 2 = .sub 0 1 2 ∧ InRange ((prog2 [] (-2147483647) 1).reg 0 - (prog2 [] (-2147483647) 1).reg 1)) ∧
    (Instr.mul 0 1 2 = .mul 0 1 2 ∧ InRange ((prog2 [] (-32768) 65536).reg 0 * (prog2 [] (-32768) 65536).reg 1)) := by
  unfold InRange
  decide

/-- Results one past an end of the range, for each of the three instructions. -/
theorem witness_ArithmeticOverflowFaults :
    ¬ InRange ((prog2 [] 2147483647 1).reg 0 + (prog2 [] 2147483647 1).reg 1) ∧
    ¬ InRange ((prog2 [] (-2147483648) 1).reg 0 - (prog2 [] (-2147483648) 1).reg 1) ∧
    ¬ InRange ((prog2 [] 32768 65536).reg 0 * (prog2 [] 32768 65536).reg 1) := by
  unfold InRange
  decide

/-- Both exclusions at their boundary: -2^31 by 1, and -(2^31 - 1) by -1. -/
theorem witness_DivWritesQuotientAndRemainder :
    ((prog2 [] (-2147483648) 1).reg 1 ≠ 0 ∧
      ¬ ((prog2 [] (-2147483648) 1).reg 0 = -2147483648 ∧ (prog2 [] (-2147483648) 1).reg 1 = -1)) ∧
    ((prog2 [] (-2147483647) (-1)).reg 1 ≠ 0 ∧
      ¬ ((prog2 [] (-2147483647) (-1)).reg 0 = -2147483648 ∧ (prog2 [] (-2147483647) (-1)).reg 1 = -1)) := by decide

theorem witness_DivFaults : (prog2 [] 9 0).reg 1 = 0 ∧
    (prog2 [] (-2147483648) (-1)).reg 0 = -2147483648 ∧ (prog2 [] (-2147483648) (-1)).reg 1 = -1 := by decide

/-- A completed DIV with a dividend of each sign. -/
theorem witness_DivisionLaw :
    ((∃ t, exec (.div 0 1 2) (prog2 [] 7 (-2)) = .next t) ∧ 0 ≤ (prog2 [] 7 (-2)).reg 0) ∧
    ((∃ t, exec (.div 0 1 2) (prog2 [] (-7) 2) = .next t) ∧ (prog2 [] (-7) 2).reg 0 ≤ 0) :=
  ⟨⟨exists_next (by decide), by decide⟩, ⟨exists_next (by decide), by decide⟩⟩

theorem witness_HltAndIllegalHalt : (Instr.hlt = .hlt ∨ ∃ b0, Instr.hlt = .illegal b0) ∧
    (Instr.illegal 16 = .hlt ∨ ∃ b0, Instr.illegal 16 = .illegal b0) := ⟨.inl rfl, .inr ⟨16, rfl⟩⟩

/-- Targets at 0 and at `len` (4) for each clause that can reach them. -/
theorem witness_JumpsReachTheirTargets :
    (0 ≤ (prog2 [6, 0, 5, 5] 0 4).reg 0 ∧ (prog2 [6, 0, 5, 5] 0 4).reg 1 ≤ (prog2 [6, 0, 5, 5] 0 4).len ∧
      0 ≤ (prog2 [6, 0, 5, 5] 0 4).reg 1) ∧
    (0 ≤ (prog2 [7, 0, 5, 5] 2 0).reg 0 ∧
      (prog2 [7, 0, 5, 5] 2 0).pc + 2 + (prog2 [7, 0, 5, 5] 2 0).reg 0 ≤ (prog2 [7, 0, 5, 5] 2 0).len) ∧
    (0 ≤ (prog2 [8, 0] 2 0).reg 0 ∧ 0 ≤ (prog2 [8, 0] 2 0).pc + 2 - (prog2 [8, 0] 2 0).reg 0 ∧
      (prog2 [8, 0] 2 0).pc + 2 - (prog2 [8, 0] 2 0).reg 0 ≤ (prog2 [8, 0] 2 0).len) := by decide

/-- Each clause one past its boundary (a JMPB beyond the end needs `pc` at `len`, as no run reaches it). -/
theorem witness_JumpFaults :
    (prog2 [6, 0, 5, 5] (-1) 0).reg 0 < 0 ∧
    (prog2 [6, 0, 5, 5] 5 0).reg 0 > (prog2 [6, 0, 5, 5] 5 0).len ∧
    (0 ≤ (prog2 [7, 0, 5, 5] 3 0).reg 0 ∧
      (prog2 [7, 0, 5, 5] 3 0).pc + 2 + (prog2 [7, 0, 5, 5] 3 0).reg 0 > (prog2 [7, 0, 5, 5] 3 0).len) ∧
    (prog2 [8, 0] 3 0).reg 0 > (prog2 [8, 0] 3 0).pc + 2 ∧
    (0 ≤ ((prog2 [8] 0 0).complete 1).reg 0 ∧
      ((prog2 [8] 0 0).complete 1).pc + 2 - ((prog2 [8] 0 0).complete 1).reg 0 > ((prog2 [8] 0 0).complete 1).len) := by
  decide

/-- Each clause: taken to `len`, not taken, taken to -1, taken to one past `len`. -/
theorem witness_JmpeFollowsTheFlag :
    (((prog2 [15, 0, 5, 5] 4 0).setFlag true).flag = true ∧ 0 ≤ ((prog2 [15, 0, 5, 5] 4 0).setFlag true).reg 0 ∧
      ((prog2 [15, 0, 5, 5] 4 0).setFlag true).reg 0 ≤ ((prog2 [15, 0, 5, 5] 4 0).setFlag true).len) ∧
    (prog2 [15, 0] (-1) 0).flag = false ∧
    (((prog2 [15, 0] (-1) 0).setFlag true).flag = true ∧ ((prog2 [15, 0] (-1) 0).setFlag true).reg 0 < 0) ∧
    (((prog2 [15, 0] 3 0).setFlag true).flag = true ∧
      ((prog2 [15, 0] 3 0).setFlag true).reg 0 > ((prog2 [15, 0] 3 0).setFlag true).len) := by decide

/-- All eight comparisons of one state complete, of different registers and of one register with itself. -/
theorem witness_ComparisonsAgreeWithEachOther (rs1 rs2 : Reg) : ∃ tEq tNeq tGte tLte tLt tGt tGteSwap tGtSwap : State,
    exec (.eq rs1 rs2 0) State.reset = .next tEq ∧ exec (.neq rs1 rs2 0) State.reset = .next tNeq ∧
    exec (.gte rs1 rs2 0) State.reset = .next tGte ∧ exec (.lte rs1 rs2 0) State.reset = .next tLte ∧
    exec (.lt rs1 rs2 0) State.reset = .next tLt ∧ exec (.gt rs1 rs2 0) State.reset = .next tGt ∧
    exec (.gte rs2 rs1 0) State.reset = .next tGteSwap ∧ exec (.gt rs2 rs1 0) State.reset = .next tGtSwap :=
  ⟨_, _, _, _, _, _, _, _, rfl, rfl, rfl, rfl, rfl, rfl, rfl, rfl⟩

/-- Every hypothesis of LoadRule: truncated by one byte; register byte 32; a whole LOAD of register 31. -/
theorem witness_LoadRule :
    (Ready (prog [0, 0, 1]) ∧ byte (prog [0, 0, 1]) 0 = 0x00 ∧ (prog [0, 0, 1]).len < (prog [0, 0, 1]).pc + 4) ∧
    (Ready (prog [0, 32, 0, 1]) ∧ byte (prog [0, 32, 0, 1]) 0 = 0x00 ∧ (prog [0, 32, 0, 1]).pc + 4 ≤ (prog [0, 32, 0, 1]).len ∧
      1 ∈ [1] ∧ 31 < (byte (prog [0, 32, 0, 1]) 1).toNat ∧
      ∀ j ∈ [1], j < 1 → (byte (prog [0, 32, 0, 1]) j).toNat ≤ 31) ∧
    (Ready (prog [0, 31, 0, 1]) ∧ (prog [0, 31, 0, 1]).pc + 4 ≤ (prog [0, 31, 0, 1]).len ∧
      byte (prog [0, 31, 0, 1]) 0 = 0x00 ∧ (byte (prog [0, 31, 0, 1]) 1).toNat = (31 : Reg).val) :=
  ⟨⟨ready (by decide) (by decide), by decide, by decide⟩,
    ⟨ready (by decide) (by decide), by decide, by decide, by decide, by decide, by decide⟩,
    ⟨ready (by decide) (by decide), by decide, by decide, by decide⟩⟩

/-- A whole arithmetic instruction of opcode byte `op` on x0 and x1 into x2. -/
def WholeArithmetic (op : Byte) (s : State) : Prop :=
  Ready s ∧ s.pc + 4 ≤ s.len ∧ byte s 0 = op ∧ (byte s 1).toNat = (0 : Reg).val ∧ (byte s 2).toNat = (1 : Reg).val ∧
    (byte s 3).toNat = (2 : Reg).val

/-- Every hypothesis of the arithmetic rule at opcode byte `op`, with one state whose result is in range and one whose
result is not. -/
def ArithmeticWitness (op : Byte) (f : Int → Int → Int) (inside outside : State) : Prop :=
  (Ready (prog [op, 0, 1]) ∧ byte (prog [op, 0, 1]) 0 = op ∧ (prog [op, 0, 1]).len < (prog [op, 0, 1]).pc + 4) ∧
  (Ready (prog [op, 31, 31, 32]) ∧ byte (prog [op, 31, 31, 32]) 0 = op ∧
    (prog [op, 31, 31, 32]).pc + 4 ≤ (prog [op, 31, 31, 32]).len ∧ 31 < (byte (prog [op, 31, 31, 32]) 3).toNat ∧
    ∀ j ∈ [1, 2, 3], j < 3 → (byte (prog [op, 31, 31, 32]) j).toNat ≤ 31) ∧
  WholeArithmetic op inside ∧ WholeArithmetic op outside ∧
  InRange (f (inside.reg 0) (inside.reg 1)) ∧ ¬ InRange (f (outside.reg 0) (outside.reg 1))

theorem witness_AddSubMulRules :
    ArithmeticWitness 1 (fun a b => a + b) (prog2 [1, 0, 1, 2] 2147483646 1) (prog2 [1, 0, 1, 2] 2147483647 1) ∧
    ArithmeticWitness 2 (fun a b => a - b) (prog2 [2, 0, 1, 2] (-2147483647) 1) (prog2 [2, 0, 1, 2] (-2147483648) 1) ∧
    ArithmeticWitness 3 (fun a b => a * b) (prog2 [3, 0, 1, 2] (-32768) 65536) (prog2 [3, 0, 1, 2] 32768 65536) := by
  refine ⟨?_, ?_, ?_⟩ <;>
    exact ⟨⟨ready (by decide) (by decide), by decide, by decide⟩,
      ⟨ready (by decide) (by decide), by decide, by decide, by decide, by decide⟩,
      ⟨ready (by decide) (by decide), by decide, by decide, by decide, by decide, by decide⟩,
      ⟨ready (by decide) (by decide), by decide, by decide, by decide, by decide, by decide⟩,
      by unfold InRange; decide, by unfold InRange; decide⟩

/-- Every hypothesis of a comparison's rule at opcode byte `op`, the pad byte being 32 where it is whole. -/
def ComparisonWitness (op : Byte) : Prop :=
  (Ready (prog [op, 0, 1]) ∧ byte (prog [op, 0, 1]) 0 = op ∧ (prog [op, 0, 1]).len < (prog [op, 0, 1]).pc + 4) ∧
  (Ready (prog [op, 31, 32, 0]) ∧ byte (prog [op, 31, 32, 0]) 0 = op ∧
    (prog [op, 31, 32, 0]).pc + 4 ≤ (prog [op, 31, 32, 0]).len ∧ 31 < (byte (prog [op, 31, 32, 0]) 2).toNat ∧
    ∀ j ∈ [1, 2], j < 2 → (byte (prog [op, 31, 32, 0]) j).toNat ≤ 31) ∧
  (Ready (prog [op, 31, 0, 32]) ∧ (prog [op, 31, 0, 32]).pc + 4 ≤ (prog [op, 31, 0, 32]).len ∧
    byte (prog [op, 31, 0, 32]) 0 = op ∧ (byte (prog [op, 31, 0, 32]) 1).toNat = (31 : Reg).val ∧
    (byte (prog [op, 31, 0, 32]) 2).toNat = (0 : Reg).val)

theorem witness_ComparisonRules : ComparisonWitness 0x09 ∧ ComparisonWitness 0x0A ∧ ComparisonWitness 0x0B ∧
    ComparisonWitness 0x0C ∧ ComparisonWitness 0x0D ∧ ComparisonWitness 0x0E := by
  refine ⟨?_, ?_, ?_, ?_, ?_, ?_⟩ <;>
    exact ⟨⟨ready (by decide) (by decide), by decide, by decide⟩,
      ⟨ready (by decide) (by decide), by decide, by decide, by decide, by decide⟩,
      ⟨ready (by decide) (by decide), by decide, by decide, by decide, by decide⟩⟩

/-- Every hypothesis of JmpRule: truncated; register byte 32; targets 0, `len`, -1 and `len` + 1. -/
theorem witness_JmpRule :
    (Ready (prog [6]) ∧ byte (prog [6]) 0 = 0x06 ∧ (prog [6]).len < (prog [6]).pc + 2) ∧
    (Ready (prog [6, 32]) ∧ byte (prog [6, 32]) 0 = 0x06 ∧ (prog [6, 32]).pc + 2 ≤ (prog [6, 32]).len ∧
      31 < (byte (prog [6, 32]) 1).toNat ∧ ∀ j ∈ [1], j < 1 → (byte (prog [6, 32]) j).toNat ≤ 31) ∧
    (∀ x ∈ [0, 2, -1, (3 : Int)], (prog2 [6, 0] x 0).blocked = false ∧ (prog2 [6, 0] x 0).pc + 2 ≤ (prog2 [6, 0] x 0).len ∧
      byte (prog2 [6, 0] x 0) 0 = 0x06 ∧ (byte (prog2 [6, 0] x 0) 1).toNat = (0 : Reg).val) ∧
    ((prog2 [6, 0] 2 0).reg 0 ≤ (prog2 [6, 0] 2 0).len ∧ 0 ≤ (prog2 [6, 0] 0 0).reg 0 ∧ (prog2 [6, 0] (-1) 0).reg 0 < 0 ∧
      (prog2 [6, 0] 3 0).reg 0 > (prog2 [6, 0] 3 0).len) :=
  ⟨⟨ready (by decide) (by decide), by decide, by decide⟩,
    ⟨ready (by decide) (by decide), by decide, by decide, by decide, by decide⟩, by decide, by decide⟩

theorem witness_IllegalRule : (Ready (prog [16]) ∧ 16 ≤ (byte (prog [16]) 0).toNat) ∧
    (Ready (prog [255]) ∧ 16 ≤ (byte (prog [255]) 0).toNat) :=
  ⟨⟨ready (by decide) (by decide), by decide⟩, ⟨ready (by decide) (by decide), by decide⟩⟩

/-! #### Steps -/

/-- Of a Running core, and of a Halted core that an append has armed. -/
theorem witness_StepRunsTheDecodedInstruction :
    (Ready (prog [5]) ∧ decode ((prog [5]).window maxLength (prog [5]).pc) = .ok .hlt) ∧
    (Ready (State.reset.halt.append [5]) ∧
      decode ((State.reset.halt.append [5]).window maxLength (State.reset.halt.append [5]).pc) = .ok .hlt) :=
  ⟨⟨ready (by decide) (by decide), by decide⟩, ⟨ready (by decide) (by decide), by decide⟩⟩

/-- Each clause: blocked; the program ended, Running and unarmed; one byte short. -/
theorem witness_StepChecksInOrder :
    (State.reset.halt.run = .halted ∧ State.reset.halt.armed = false) ∧
    (¬ (State.reset.run = .halted ∧ State.reset.armed = false) ∧ State.reset.len ≤ State.reset.pc) ∧
    (Ready (prog [0, 0, 1]) ∧
      (prog [0, 0, 1]).len < (prog [0, 0, 1]).pc + (decodeOpcode hwConfig (byte (prog [0, 0, 1]) 0)).length) :=
  ⟨by decide, by decide, ⟨ready (by decide) (by decide), by decide⟩⟩

/-- A pair with the first part `o` has a state beside it. -/
theorem exists_state {p : StepOutcome × State} {o : StepOutcome} (h : p.1 = o) : ∃ t, p = (o, t) := ⟨p.2, by rw [← h]⟩

/-- Each outcome occurs. -/
theorem witness_OutcomeAgreesWithState :
    (∃ t, stepCommand (prog [0, 0, 0, 100]) = (.running, t)) ∧
    (∃ t, stepCommand (prog [5]) = (.halted .hltExecuted, t)) ∧
    (∃ t, stepCommand (prog [4, 0, 1, 2]) = (.fault (.divideByZero ⟨4, 0, some (2, 1)⟩), t)) :=
  ⟨exists_state (by decide), exists_state (by decide), exists_state (by decide)⟩

theorem witness_FaultsArePrecise : ∃ t, stepCommand (prog [0, 32, 0, 0]) =
    (.fault (.registerIndexOutOfRange ⟨0, 0, some (1, 32)⟩), t) := exists_state (by decide)

/-- A fault with an operand at the last byte of the buffer, and one with none. -/
theorem witness_FaultRecordsNameTheBytes :
    step (prog [6, 32]) = .fault (.registerIndexOutOfRange ⟨6, 0, some (1, 32)⟩) ∧
    step (prog [6]) = .fault (.truncatedInstruction ⟨6, 0, none⟩) := ⟨eq_fault (by decide), eq_fault (by decide)⟩

/-- Each of the four reasons. -/
theorem witness_GracefulHaltsAreNotFaults :
    (∃ t, stepCommand (prog [5]) = (.halted .hltExecuted, t)) ∧
    (∃ t, stepCommand (prog [16]) = (.halted (.illegalOpcode 16), t)) ∧
    (∃ t, stepCommand State.reset = (.halted .endOfProgram, t)) ∧
    (∃ t, stepCommand State.reset.halt = (.halted .notResumed, t)) :=
  ⟨exists_state (by decide), exists_state (by decide), exists_state (by decide), exists_state (by decide)⟩

/-- A completing instruction that is no jump, each jump taken, and a fault. -/
theorem witness_SequentialAdvance :
    (fetch (prog [5]) = .instr .hlt ∧ (∃ t, step (prog [5]) = .next t) ∧ ¬ JumpTaken .hlt (prog [5])) ∧
    (fetch (prog [6, 0]) = .instr (.jmp 0) ∧ ∃ t, step (prog [6, 0]) = .next t) ∧
    (fetch (prog [7, 0]) = .instr (.jmpf 0) ∧ ∃ t, step (prog [7, 0]) = .next t) ∧
    (fetch (prog [8, 0]) = .instr (.jmpb 0) ∧ ∃ t, step (prog [8, 0]) = .next t) ∧
    (fetch ((prog [15, 0]).setFlag true) = .instr (.jmpe 0) ∧ ((prog [15, 0]).setFlag true).flag = true ∧
      ∃ t, step ((prog [15, 0]).setFlag true) = .next t) ∧
    (∃ t, stepCommand (prog [6]) = (.fault (.truncatedInstruction ⟨6, 0, none⟩), t)) := by
  refine ⟨⟨by decide, exists_next (by decide), ?_⟩, ⟨by decide, exists_next (by decide)⟩,
    ⟨by decide, exists_next (by decide)⟩, ⟨by decide, exists_next (by decide)⟩,
    ⟨by decide, by decide, exists_next (by decide)⟩, exists_state (by decide)⟩
  rintro (⟨ra, h⟩ | ⟨ra, h⟩ | ⟨ra, h⟩ | ⟨⟨ra, h⟩, -⟩) <;> cases h

/-- Both clauses: a completing HLT, which is no jump; a step with no program. -/
theorem witness_ProgramCounterGrowsWithoutJumps :
    ((∃ t, stepCommand (prog [5]) = (.halted .hltExecuted, t)) ∧
      ∀ ra, fetch (prog [5]) ≠ .instr (.jmp ra) ∧ fetch (prog [5]) ≠ .instr (.jmpf ra) ∧
        fetch (prog [5]) ≠ .instr (.jmpb ra) ∧ fetch (prog [5]) ≠ .instr (.jmpe ra)) ∧
    (∃ t, stepCommand State.reset = (.halted .endOfProgram, t)) :=
  ⟨⟨exists_state (by decide), by decide⟩, exists_state (by decide)⟩

theorem witness_HaltedCoreStays : State.reset.halt.run = .halted ∧ State.reset.halt.armed = false := by decide

/-- An append that fits exactly, to a Halted core, and an empty one. -/
theorem witness_AppendArmsTheCore :
    (appendBytesWithin 1 State.reset.halt [5] = .ok (State.reset.halt.append [5]) ∧ ([5] : List Byte) ≠ [] ∧
      (State.reset.halt.append [5]).pc < (State.reset.halt.append [5]).len ∧
      decode ((State.reset.halt.append [5]).window maxLength (State.reset.halt.append [5]).pc) = .ok .hlt) ∧
    appendBytesWithin 0 State.reset [] = .ok (State.reset.append []) := ⟨⟨rfl, by decide, by decide, by decide⟩, rfl⟩

/-- Exactly the missing byte is appended. -/
theorem witness_AppendCuresTruncation : (prog [0, 0, 1]).BufOk ∧
    step (prog [0, 0, 1]) = .fault (.truncatedInstruction ⟨0, 0, none⟩) ∧
    (prog [0, 0, 1]).pc + (decodeOpcode hwConfig (byte (prog [0, 0, 1]) 0)).length ≤
      (prog [0, 0, 1]).len + ([7] : List Byte).length := ⟨by decide, eq_fault (by decide), by decide⟩

/-- Each clause: a register that is not the destination; a register file that differs in no source; a command that is no
step. -/
theorem witness_RegisterAccess :
    ((∃ t, exec (.load 31 0) State.reset = .next t) ∧ destReg (.load 31 0) ≠ some 30) ∧
    (∀ r ∈ sourceRegs (.add 0 1 2), ((prog [1, 0, 1, 2]).setReg 2 9).reg r = (prog [1, 0, 1, 2]).reg r) ∧
    (Command.read .pc ≠ .step ∧ ∀ n, Command.read .pc ≠ .runToHalt n) :=
  ⟨⟨exists_next (by decide), by decide⟩, by decide, ⟨nofun, nofun⟩⟩

/-- An EQ changes the flag, and HLT is no JMPE. -/
theorem witness_EqualFlagAccess :
    (∃ t, step (prog [9, 0, 1, 0]) = .next t ∧ t.flag ≠ (prog [9, 0, 1, 0]).flag) ∧ ∀ ra, Instr.hlt ≠ .jmpe ra := by
  refine ⟨?_, nofun⟩
  obtain ⟨t, h⟩ := exists_next (r := step (prog [9, 0, 1, 0])) (by decide)
  have hf : (after (step (prog [9, 0, 1, 0]))).map (·.flag) = some true := by decide
  rw [h] at hf
  have ht := Option.some.inj hf
  exact ⟨t, h, by simp only at ht; rw [ht]; decide⟩

/-- A DIV changes rem. -/
theorem witness_RemainderIsWriteOnly :
    ∃ t, step (prog2 [4, 0, 1, 2] 7 2) = .next t ∧ t.rem ≠ (prog2 [4, 0, 1, 2] 7 2).rem := by
  obtain ⟨t, h⟩ := exists_next (r := step (prog2 [4, 0, 1, 2] 7 2)) (by decide)
  have hf : (after (step (prog2 [4, 0, 1, 2] 7 2))).map (·.rem) = some 1 := by decide
  rw [h] at hf
  have ht := Option.some.inj hf
  exact ⟨t, h, by simp only at ht; rw [ht]; decide⟩

theorem witness_StepsNeverWriteTheBuffer : ∃ t, step (prog [0, 0, 0, 100]) = .next t := exists_next (by decide)

/-- A canonical buffer with a zero byte inside, and its last address. -/
theorem witness_AppendAddsAtTheEnd : (prog [5, 0, 7]).BufOk ∧
    appendBytesWithin 5 (prog [5, 0, 7]) [0, 9] = .ok ((prog [5, 0, 7]).append [0, 9]) ∧
    1 < ([0, 9] : List Byte).length ∧ 2 < (prog [5, 0, 7]).len := ⟨by decide, rfl, by decide, by decide⟩

/-- An append that fits exactly, and one that is one byte too long. -/
theorem witness_AppendRespectsCapacity : (prog [5, 5]).len + ([5, 5] : List Byte).length ≤ 4 ∧
    4 < (prog [5, 5]).len + ([5, 5, 5] : List Byte).length := by decide

theorem witness_BufferIsAppendOnly : (prog [5, 0, 7]).BufOk ∧ 2 < (prog [5, 0, 7]).len := by decide

/-- Both clauses: a session whose run completed with its last step of fuel, and one whose run did not. -/
theorem witness_SessionsRunEachCommandToCompletion :
    Reply.stillRunning ∉ (session 5 [.runToHalt 2] (prog [0, 0, 0, 1, 5])).1 ∧
    Reply.stillRunning ∈ (session 5 [.runToHalt 1] (prog [0, 0, 0, 1, 5])).1 := by decide

/-- A full buffer, and a step that brings `pc` to `len`. -/
theorem witness_StepKeepsTheInvariant : (prog [5]).Inv 1 ∧ ∃ t, step (prog [5]) = .next t :=
  ⟨by decide, exists_next (by decide)⟩

theorem witness_SessionsKeepTheInvariant : (prog [5, 0]).Inv 2 := by decide

/-- One Running step, then a halt. -/
theorem witness_RunToHaltStopsAtTheFirstStop :
    ∃ u, RunningSteps 1 (prog [0, 0, 0, 100, 5]) u ∧ ∃ t, stepCommand u = (.halted .hltExecuted, t) := by
  obtain ⟨u, h⟩ := exists_state (p := stepCommand (prog [0, 0, 0, 100, 5])) (o := .running) (by decide)
  refine ⟨u, ⟨u, h, rfl⟩, exists_state ?_⟩
  have hu : (stepCommand (stepCommand (prog [0, 0, 0, 100, 5])).2).1 = .halted .hltExecuted := by decide
  rwa [h] at hu

/-- A run that answers an outcome has a state beside it. -/
theorem exists_run {fuel : Nat} {s : State} {o : StepOutcome} (h : (runToHalt fuel s).1 = some o) :
    ∃ t, runToHalt fuel s = (some o, t) := ⟨(runToHalt fuel s).2, by rw [← h]⟩

theorem witness_RunToHaltAnswersAStepsOutcome : ∃ t, runToHalt 1 (prog [5]) = (some (.halted .hltExecuted), t) :=
  exists_run (by decide)

theorem witness_GracefulRunsEndHalted : (∃ t, runToHalt 1 (prog [5]) = (some (.halted .hltExecuted), t)) ∧
    (StepOutcome.halted .hltExecuted).graceful = true := ⟨exists_run (by decide), rfl⟩

end Sys2Proof.Tests
end

section
/-! PROOF. Who reads and writes the general registers (10_state.md R23): the write frame of an instruction, its
independence of every register but its sources, and the host commands that run no step. Each half is proved once for the
operations the meanings share, and then composed along the arms of `exec`. -/

open Sys2Proof Sys2Proof.Machine Sys2Proof.Claims

namespace Sys2Proof.Proofs

/-- The written register reads as the word written, whatever the register file was. -/
theorem reg_setReg_same (s : State) (r : Reg) (v : Int) : (s.setReg r v).reg r = s32 (word32 v) := by
  simp only [State.reg, get_setReg, if_pos]

/-! ### What a completed instruction writes -/

/-- The frame of a register write, in the terms of `destReg`. -/
theorem reg_setReg_of_not_dest (s : State) {rd r : Reg} (v : Int) (hr : some rd ≠ some r) :
    (s.setReg rd v).reg r = s.reg r :=
  reg_setReg_ne s v fun e => hr (congrArg some e.symm)

theorem reg_of_writeChecked {op : Opcode} {rd r : Reg} {v : Int} {s t : State}
    (h : writeChecked op rd v s = .next t) (hr : some rd ≠ some r) : t.reg r = s.reg r := by
  obtain ⟨-, rfl⟩ := writeChecked_next h
  exact reg_setReg_of_not_dest s v hr

theorem reg_of_checkTarget {op : Opcode} {ra r : Reg} {v : Int} {s t : State}
    (h : checkTarget op ra v s = .next t) : t.reg r = s.reg r := by
  obtain ⟨-, -, rfl⟩ := checkTarget_next h
  rfl

/-- A guard that raises a fault did not hold if a next state was reached. -/
theorem next_of_guard {c : Prop} [Decidable c] {k : FaultRecord → Fault} {op : Opcode} {o : Option (Nat × Byte)}
    {s t : State} {e : Result} (h : (if c then raise k op o s else e) = .next t) : e = .next t := by
  split at h
  · exact (raise_ne_next _ _ _ _ _ h).elim
  · exact h

theorem reg_of_execDiv {rs1 rs2 rd r : Reg} {s t : State}
    (h : execDiv rs1 rs2 rd s = .next t) (hr : some rd ≠ some r) : t.reg r = s.reg r := by
  have hq := next_of_guard h
  split at hq
  · obtain rfl := Host.Outcome.next.inj hq
    exact reg_setReg_of_not_dest s _ hr
  · exact (raise_ne_next _ _ _ _ _ hq).elim

/-- A jump that is not taken falls through with the registers as they were. -/
theorem reg_of_execJmpe {ra r : Reg} {s t : State} (h : execJmpe ra s = .next t) : t.reg r = s.reg r := by
  unfold execJmpe at h
  split at h
  · exact reg_of_checkTarget h
  · obtain rfl := Host.Outcome.next.inj h
    rfl

theorem reg_of_compareWith {op : Opcode} {rel : Int → Int → Bool} {rs1 rs2 r : Reg} {s t : State}
    (h : compareWith op rel rs1 rs2 s = .next t) : t.reg r = s.reg r := by
  obtain rfl := compareWith_next h
  rfl

/-- A completed instruction leaves every register but its destination. -/
theorem reg_of_exec {i : Instr} {s t : State} (h : exec i s = .next t) {r : Reg} (hr : destReg i ≠ some r) :
    t.reg r = s.reg r := by
  cases i with
  | load rd imm16 =>
    obtain rfl := Host.Outcome.next.inj h
    exact reg_setReg_of_not_dest s _ hr
  | add | sub | mul => exact reg_of_writeChecked h hr
  | div => exact reg_of_execDiv h hr
  | hlt | illegal =>
    obtain rfl := Host.Outcome.next.inj h
    rfl
  | jmp => exact reg_of_checkTarget h
  | jmpf | jmpb => exact reg_of_checkTarget (next_of_guard h)
  | jmpe => exact reg_of_execJmpe h
  | eq | neq | gte | lte | lt | gt => exact reg_of_compareWith h

/-! ### What an instruction's answer depends on -/

section Answers

variable {i : Instr} {s : State} {x' : Vector Word 32}

/-- Fault records name the opcode, the offset and operand bytes, and no register's value. -/
theorem sameButOtherRegs_raise {k : FaultRecord → Fault} {op : Opcode} {o : Option (Nat × Byte)} :
    SameButOtherRegs i (raise k op o s) (raise k op o { s with x := x' }) := rfl

/-- Without a destination, the answers may differ in the whole register file. -/
theorem sameButOtherRegs_next (hd : destReg i = none) {t : State} :
    SameButOtherRegs i (.next t) (.next { t with x := x' }) :=
  ⟨rfl, fun _ hr => absurd (hd.symm.trans hr) nofun⟩

/-- A write of one value to the destination makes the two register files agree there. -/
theorem sameButOtherRegs_setReg {rd : Reg} (hd : destReg i = some rd) {v : Int} {w : Word} {p : Nat} :
    SameButOtherRegs i (.next (((s.setReg rd v).setRem w).complete p))
      (.next (((({ s with x := x' } : State).setReg rd v).setRem w).complete p)) := by
  refine ⟨rfl, fun r hr => ?_⟩
  obtain rfl : rd = r := Option.some.inj (hd.symm.trans hr)
  simp only [reg_complete, reg_setRem, reg_setReg_same]

/-- Answers chosen by one condition agree when each choice does. -/
theorem sameButOtherRegs_ite {c c' : Prop} [Decidable c] [Decidable c'] (hc : c' ↔ c) {a b a' b' : Result}
    (ha : SameButOtherRegs i a a') (hb : SameButOtherRegs i b b') :
    SameButOtherRegs i (if c then a else b) (if c' then a' else b') := by
  by_cases h : c
  · rwa [if_pos h, if_pos (hc.mpr h)]
  · rwa [if_neg h, if_neg (mt hc.mp h)]

theorem sameButOtherRegs_checkTarget (hd : destReg i = none) {op : Opcode} {ra : Reg} {v v' : Int} (hv : v' = v) :
    SameButOtherRegs i (checkTarget op ra v s) (checkTarget op ra v' { s with x := x' }) := by
  subst hv
  exact sameButOtherRegs_ite .rfl sameButOtherRegs_raise
    (sameButOtherRegs_ite .rfl sameButOtherRegs_raise (sameButOtherRegs_next hd))

/-- ADD, SUB and MUL: the result is a function `f` of the two sources. -/
theorem sameButOtherRegs_writeChecked {rs1 rs2 rd : Reg} (hd : destReg i = some rd) {op : Opcode} (f : Int → Int → Int)
    (h : ∀ r ∈ [rs1, rs2], ({ s with x := x' } : State).reg r = s.reg r) :
    SameButOtherRegs i (writeChecked op rd (f (s.reg rs1) (s.reg rs2)) s)
      (writeChecked op rd (f (({ s with x := x' } : State).reg rs1) (({ s with x := x' } : State).reg rs2))
        { s with x := x' }) := by
  rw [h rs1 (by simp), h rs2 (by simp)]
  exact sameButOtherRegs_ite .rfl (sameButOtherRegs_setReg (w := s.rem) hd) sameButOtherRegs_raise

theorem sameButOtherRegs_execDiv {rs1 rs2 rd : Reg} (hd : destReg i = some rd)
    (h : ∀ r ∈ [rs1, rs2], ({ s with x := x' } : State).reg r = s.reg r) :
    SameButOtherRegs i (execDiv rs1 rs2 rd s) (execDiv rs1 rs2 rd { s with x := x' }) := by
  unfold execDiv
  rw [h rs1 (by simp), h rs2 (by simp)]
  exact sameButOtherRegs_ite .rfl sameButOtherRegs_raise
    (sameButOtherRegs_ite .rfl (sameButOtherRegs_setReg hd) sameButOtherRegs_raise)

theorem sameButOtherRegs_compareWith {rs1 rs2 : Reg} (hd : destReg i = none) {op : Opcode} {rel : Int → Int → Bool}
    (h : ∀ r ∈ [rs1, rs2], ({ s with x := x' } : State).reg r = s.reg r) :
    SameButOtherRegs i (compareWith op rel rs1 rs2 s) (compareWith op rel rs1 rs2 { s with x := x' }) := by
  unfold compareWith
  rw [h rs1 (by simp), h rs2 (by simp)]
  exact sameButOtherRegs_next hd

/-- JMPF and JMPB: the register is checked for a negative distance before the target. -/
theorem sameButOtherRegs_relativeJump {ra : Reg} (hd : destReg i = none) {op : Opcode} (f : Int → Int)
    (h : ({ s with x := x' } : State).reg ra = s.reg ra) :
    SameButOtherRegs i
      (if s.reg ra < 0 then raise .negativeJumpDistance op (some (1, regByte ra)) s
        else checkTarget op ra (f (s.reg ra)) s)
      (if ({ s with x := x' } : State).reg ra < 0 then
          raise .negativeJumpDistance op (some (1, regByte ra)) { s with x := x' }
        else checkTarget op ra (f (({ s with x := x' } : State).reg ra)) { s with x := x' }) :=
  sameButOtherRegs_ite (by rw [h]) sameButOtherRegs_raise (sameButOtherRegs_checkTarget hd (congrArg f h))

/-- Two states that agree but for registers an instruction does not read give answers that agree but for registers it
does not write. -/
theorem sameButOtherRegs_exec (h : ∀ r ∈ sourceRegs i, ({ s with x := x' } : State).reg r = s.reg r) :
    SameButOtherRegs i (exec i s) (exec i { s with x := x' }) := by
  cases i with
  | load rd imm16 => exact sameButOtherRegs_setReg (w := s.rem) rfl
  | add => exact sameButOtherRegs_writeChecked rfl (· + ·) h
  | sub => exact sameButOtherRegs_writeChecked rfl (· - ·) h
  | mul => exact sameButOtherRegs_writeChecked rfl (· * ·) h
  | div => exact sameButOtherRegs_execDiv rfl h
  | hlt | illegal => exact sameButOtherRegs_next rfl
  | jmp ra => exact sameButOtherRegs_checkTarget rfl (h ra (List.mem_singleton_self ra))
  | jmpf ra => exact sameButOtherRegs_relativeJump rfl ((s.nextPc .jmpf : Int) + ·) (h ra (List.mem_singleton_self ra))
  | jmpb ra => exact sameButOtherRegs_relativeJump rfl ((s.nextPc .jmpb : Int) - ·) (h ra (List.mem_singleton_self ra))
  | jmpe ra =>
    exact sameButOtherRegs_ite .rfl (sameButOtherRegs_checkTarget rfl (h ra (List.mem_singleton_self ra)))
      (sameButOtherRegs_next rfl)
  | eq | neq | gte | lte | lt | gt => exact sameButOtherRegs_compareWith rfl h

end Answers

/-! ### What the host writes -/

/-- An append leaves the registers, accepted or rejected. -/
theorem regsKept_appendBytes (cap : Nat) (bytes : List Byte) (s : State) :
    RegsKept s (command cap (.appendBytes bytes) s).2 := by
  intro r
  simp only [command, appendBytesWithin]
  by_cases h : cap < s.len + bytes.length
  · simp [h]
  · simp [h]

/-- Settles O44: the write frame, the dependence on the sources alone, and the host's commands that run no step. -/
theorem registerAccess : Obligations.RegisterAccess := by
  refine ⟨fun _ _ _ h _ hr => reg_of_exec h hr, fun _ _ _ h => sameButOtherRegs_exec h, fun cap c s hs hrun => ?_⟩
  cases c with
  | step => exact absurd rfl hs
  | runToHalt fuel => exact absurd rfl (hrun fuel)
  | appendBytes bytes => exact regsKept_appendBytes cap bytes s
  | read q => exact fun _ => rfl

end Sys2Proof.Proofs
end

section
/-! PROOF. The wire contract of 30_encoding.md: the opcode map (R64, R65), the VALIDATE phase on register bytes (R68),
LOAD's immediate (R67), and the order of the bytes the encoder emits (R77). -/

open Sys2Proof Sys2Proof.Machine Sys2Proof.Claims

namespace Sys2Proof.Proofs

/-! ### The opcode map -/

/-- The real opcodes are all but ILLEGAL (R63). -/
theorem mem_real_iff (op : Opcode) : op ∈ Opcode.real ↔ op ≠ .illegal := by
  cases op <;> decide

section OpcodeMap

variable {c : Config} (hc : c.Lawful)
include hc

/-- A lawful map holds exactly the real opcodes. -/
theorem mem_opcodeMap_iff (op : Opcode) : op ∈ c.opcodeMap ↔ op ≠ .illegal := by
  obtain ⟨-, -, hillegal, hreal⟩ := hc
  exact ⟨fun h e => hillegal (e ▸ h), fun h => hreal op ((mem_real_iff op).mpr h)⟩

/-- A byte with a code in the map decodes to the map's entry. -/
theorem decodeOpcode_eq_getElem {b : Byte} (h : b.toNat < c.opcodeMap.length) :
    decodeOpcode c b = c.opcodeMap[b.toNat] := by
  rw [decodeOpcode, if_pos (hc.1 ▸ h), List.getD_eq_getElem _ _ h]

/-- The codes of the map are the bytes 0..15. -/
theorem decodeOpcode_ne_illegal_iff (b : Byte) : decodeOpcode c b ≠ .illegal ↔ b.toNat < 16 := by
  by_cases hb : b.toNat < 16
  · have hlen : b.toNat < c.opcodeMap.length := hc.1 ▸ hb
    rw [decodeOpcode_eq_getElem hc hlen]
    exact iff_of_true ((mem_opcodeMap_iff hc _).mp (List.getElem_mem hlen)) hb
  · simp [decodeOpcode, hb]

/-- A real opcode's code is an index of the map. -/
theorem idxOf_lt_of_real {op : Opcode} (h : op ≠ .illegal) : c.opcodeMap.idxOf op < c.opcodeMap.length :=
  List.idxOf_lt_length_of_mem ((mem_opcodeMap_iff hc op).mpr h)

/-- A real opcode is encoded as its index in the map, which fits a byte. -/
theorem encodeOpcode_toNat {op : Opcode} (h : op ≠ .illegal) :
    (encodeOpcode c op).toNat = c.opcodeMap.idxOf op := by
  have hidx := idxOf_lt_of_real hc h
  rw [hc.1] at hidx
  rw [encodeOpcode, if_neg h, BitVec.toNat_ofNat]
  omega

/-- Only real opcodes have a code in 0..15: ILLEGAL's sentinel is 200. -/
theorem encodeOpcode_toNat_lt_iff (op : Opcode) : (encodeOpcode c op).toNat < 16 ↔ op ≠ .illegal := by
  by_cases h : op = .illegal
  · subst h
    exact iff_of_false (show ¬ sentinel.toNat < 16 by decide) (fun h => h rfl)
  · rw [encodeOpcode_toNat hc h, ← hc.1]
    exact iff_of_true (idxOf_lt_of_real hc h) h

end OpcodeMap

/-- Settles O2: a lawful map has 16 entries, none of them ILLEGAL. -/
theorem opcodeByteDecodesTotally : Obligations.OpcodeByteDecodesTotally :=
  fun _ hc b => ⟨fun h => decodeOpcode_eq_getElem hc h, (decodeOpcode_ne_illegal_iff hc b).symm⟩

/-- Settles O3: the code of a real opcode is its index in the map, where the map holds it. -/
theorem opcodeEncodesToItsCode : Obligations.OpcodeEncodesToItsCode := by
  refine fun c hc => ⟨fun op hop => ?_, rfl, encodeOpcode_toNat_lt_iff hc⟩
  have hidx := idxOf_lt_of_real hc hop
  simp only [encodeOpcode_toNat hc hop]
  exact ⟨hidx, List.getElem_idxOf hidx⟩

/-! ### The encoder's output -/

/-- A register or immediate slot, or an absent one, gives the bytes R77 lists. -/
theorem encodeSlot_of_operandSlot {o : Option Token} (h : OperandSlot o) : encodeSlot o = .ok (slotBytes o) := by
  match o, h with
  | none, _ => rfl
  | some (.register _), _ => rfl
  | some (.immediate v), _ =>
    have hhi : immHi v = BitVec.ofNat 8 (v.toNat / 256) := BitVec.eq_of_toNat_eq (by
      simp [immHi, BitVec.extractLsb'_toNat, Nat.shiftRight_eq_div_pow])
    have hlo : immLo v = BitVec.ofNat 8 (v.toNat % 256) := BitVec.eq_of_toNat_eq (by
      simp [immLo, BitVec.extractLsb'_toNat])
    rw [encodeSlot, hhi, hlo, slotBytes]
  | some (.opcode op), h => exact absurd rfl (h op)

/-- Settles O10: each slot gives its own bytes, and the encoder puts them after the opcode's byte in order. -/
theorem encoderEmitsOperandsInOrder : Obligations.EncoderEmitsOperandsInOrder := by
  intro c op o1 o2 o3 label h1 h2 h3
  simp only [encodeParsed, encodeSlot_of_operandSlot h1, encodeSlot_of_operandSlot h2, encodeSlot_of_operandSlot h3]

/-! ### The register bytes of a decoded instruction

The bytes of an instruction are given as a function `f` of their position, as `byte s` gives them in a state. -/

/-- The bytes after the opcode byte of an instruction of opcode `op`, byte `k` being `f k`. -/
def operandBytes (f : Nat → Byte) (op : Opcode) : List Byte := (List.range' 1 (op.length - 1)).map f

/-- Position `k` is the first of `positions` whose byte is above 31, and so no register index. -/
def FirstBad (f : Nat → Byte) (positions : List Nat) (k : Nat) : Prop :=
  k ∈ positions ∧ 31 < (f k).toNat ∧ ∀ j ∈ positions, j < k → (f j).toNat ≤ 31

theorem not_firstBad_nil {f : Nat → Byte} {k : Nat} : ¬ FirstBad f [] k := fun h => absurd h.1 List.not_mem_nil

/-- Validating the positions in rising order stops at the first bad one: either at once, or past a good byte in the
decoding that goes on from it. -/
theorem withReg_of_firstBad {f : Nat → Byte} {p k : Nat} {ps : List Nat} {b0 : Byte}
    {go : Reg → Except DecodeError Instr} (h : FirstBad f (p :: ps) k) (hp : ∀ q ∈ ps, p < q)
    (hgo : ∀ r, FirstBad f ps k → go r = .error (.badRegister b0 k (f k))) :
    withReg b0 p (f p) go = .error (.badRegister b0 k (f k)) := by
  obtain ⟨hk, hbad, hgood⟩ := h
  rcases List.mem_cons.mp hk with rfl | hk
  · exact withReg_of_bad hbad
  · obtain ⟨r, hr⟩ := exists_regByte (hgood p List.mem_cons_self (hp k hk))
    rw [hr, withReg_regByte]
    exact hgo r ⟨hk, hbad, fun j hj => hgood j (List.mem_cons_of_mem p hj)⟩

/-- The decoder refuses a whole instruction with a bad register byte, and names the first one. -/
theorem decodeOperands_of_firstBad {c : Config} {f : Nat → Byte} {op : Opcode} {k : Nat} (b0 : Byte) (t : List Byte)
    (h : FirstBad f op.format.regPositions k) :
    decodeOperands c b0 (operandBytes f op ++ t) op = .error (.badRegister b0 k (f k)) := by
  cases op with
  | load | jmp | jmpf | jmpb | jmpe =>
    exact withReg_of_firstBad h (by simp) fun _ h => absurd h not_firstBad_nil
  | add | sub | mul | div =>
    exact withReg_of_firstBad h (by simp) fun _ h => withReg_of_firstBad h (by simp) fun _ h =>
      withReg_of_firstBad h (by simp) fun _ h => absurd h not_firstBad_nil
  | eq | neq | gte | lte | lt | gt =>
    exact withReg_of_firstBad h (by simp) fun _ h => withReg_of_firstBad h (by simp) fun _ h =>
      absurd h not_firstBad_nil
  | hlt | illegal => exact absurd h not_firstBad_nil

/-! Past VALIDATE, each format gives an instruction whose operands encode to the bytes read. -/

section Registers

variable {c : Config} {f : Nat → Byte}

theorem decodeFR_of_registers {mk : Reg → Instr} (b0 : Byte) (t : List Byte)
    (hmk : ∀ ra, encodeOperands c (mk ra) = [regByte ra]) (h : ∀ k ∈ Format.fr.regPositions, (f k).toNat ≤ 31) :
    ∃ i, decodeFR b0 mk (f 1 :: t) = .ok i ∧ encodeOperands c i = [f 1] := by
  obtain ⟨ra, h1⟩ := exists_regByte (h 1 (by decide))
  exact ⟨mk ra, by simp [decodeFR, h1], by rw [hmk, h1]⟩

theorem decodeFRI_of_registers {mk : Reg → Imm → Instr} (b0 : Byte) (t : List Byte)
    (hmk : ∀ rd v, encodeOperands c (mk rd v) = [regByte rd, immHi v, immLo v])
    (h : ∀ k ∈ Format.fri.regPositions, (f k).toNat ≤ 31) :
    ∃ i, decodeFRI b0 mk (f 1 :: f 2 :: f 3 :: t) = .ok i ∧ encodeOperands c i = [f 1, f 2, f 3] := by
  obtain ⟨rd, h1⟩ := exists_regByte (h 1 (by decide))
  exact ⟨mk rd (immOfBytes (f 2) (f 3)), by simp [decodeFRI, h1], by
    rw [hmk, h1, immHi_immOfBytes, immLo_immOfBytes]⟩

theorem decodeFRRX_of_registers {mk : Reg → Reg → Byte → Instr} (b0 : Byte) (t : List Byte)
    (hmk : ∀ rs1 rs2 pad, encodeOperands c (mk rs1 rs2 pad) = [regByte rs1, regByte rs2, pad])
    (h : ∀ k ∈ Format.frrx.regPositions, (f k).toNat ≤ 31) :
    ∃ i, decodeFRRX b0 mk (f 1 :: f 2 :: f 3 :: t) = .ok i ∧ encodeOperands c i = [f 1, f 2, f 3] := by
  obtain ⟨rs1, h1⟩ := exists_regByte (h 1 (by decide))
  obtain ⟨rs2, h2⟩ := exists_regByte (h 2 (by decide))
  exact ⟨mk rs1 rs2 (f 3), by simp [decodeFRRX, h1, h2], by rw [hmk, h1, h2]⟩

/-- The decoder and the encoder take the same position for the destination, whichever R72 gives. -/
theorem decodeFRRR_of_registers {mk : Reg → Reg → Reg → Instr} (b0 : Byte) (t : List Byte)
    (hmk : ∀ rs1 rs2 rd, encodeOperands c (mk rs1 rs2 rd) = encodeFRRR c rs1 rs2 rd)
    (h : ∀ k ∈ Format.frrr.regPositions, (f k).toNat ≤ 31) :
    ∃ i, decodeFRRR c b0 mk (f 1 :: f 2 :: f 3 :: t) = .ok i ∧ encodeOperands c i = [f 1, f 2, f 3] := by
  obtain ⟨r1, h1⟩ := exists_regByte (h 1 (by decide))
  obtain ⟨r2, h2⟩ := exists_regByte (h 2 (by decide))
  obtain ⟨r3, h3⟩ := exists_regByte (h 3 (by decide))
  cases hd : c.arithDestPos with
  | last => exact ⟨mk r1 r2 r3, by simp [decodeFRRR, hd, h1, h2, h3], by simp [hmk, encodeFRRR, hd, h1, h2, h3]⟩
  | first => exact ⟨mk r2 r3 r1, by simp [decodeFRRR, hd, h1, h2, h3], by simp [hmk, encodeFRRR, hd, h1, h2, h3]⟩

/-- The decoder accepts a whole instruction with good register bytes, and its operands encode to the bytes read. -/
theorem decodeOperands_of_registers {op : Opcode} (b0 : Byte) (t : List Byte)
    (h : ∀ k ∈ op.format.regPositions, (f k).toNat ≤ 31) :
    ∃ i, decodeOperands c b0 (operandBytes f op ++ t) op = .ok i ∧ encodeOperands c i = operandBytes f op := by
  cases op with
  | load => exact decodeFRI_of_registers b0 t (fun _ _ => rfl) h
  | add | sub | mul | div => exact decodeFRRR_of_registers b0 t (fun _ _ _ => rfl) h
  | jmp | jmpf | jmpb | jmpe => exact decodeFR_of_registers b0 t (fun _ => rfl) h
  | eq | neq | gte | lte | lt | gt => exact decodeFRRX_of_registers b0 t (fun _ _ _ => rfl) h
  | hlt | illegal => exact ⟨_, rfl, rfl⟩

end Registers

/-- A decoded instruction has the opcode its operands were decoded for. -/
theorem opcode_of_decodeOperands {c : Config} {b0 : Byte} {rest : List Byte} {op : Opcode} {i : Instr}
    (h : decodeOperands c b0 rest op = .ok i) : i.opcode = op := by
  cases op with
  | load =>
    obtain ⟨_, _, _, _, -, rfl⟩ := decodeFRI_ok h
    rfl
  | add | sub | mul | div =>
    obtain ⟨_, _, _, _, rfl, -⟩ := decodeFRRR_ok h
    rfl
  | jmp | jmpf | jmpb | jmpe =>
    obtain ⟨_, _, -, rfl⟩ := decodeFR_ok h
    rfl
  | eq | neq | gte | lte | lt | gt =>
    obtain ⟨_, _, _, _, -, rfl⟩ := decodeFRRX_ok h
    rfl
  | hlt | illegal =>
    obtain rfl := Except.ok.inj h
    rfl

/-- Register bytes lie after the opcode byte, within the instruction. -/
theorem regPositions_within {op : Opcode} {k : Nat} (h : k ∈ op.format.regPositions) : 1 ≤ k ∧ k < op.length := by
  have hall : ∀ fmt : Format, ∀ k ∈ fmt.regPositions, 1 ≤ k ∧ k < fmt.length := by
    intro fmt
    cases fmt <;> decide
  exact hall op.format k h

/-- Byte `k` of an instruction whose operand bytes are `operandBytes f op` is `f k`. -/
theorem getElem?_cons_operandBytes (f : Nat → Byte) {op : Opcode} {k : Nat} (b0 : Byte) (h1 : 1 ≤ k)
    (hk : k < op.length) : (b0 :: operandBytes f op)[k]? = some (f k) := by
  obtain ⟨j, rfl⟩ := Nat.exists_eq_add_of_le' h1
  rw [List.getElem?_cons_succ, operandBytes, List.getElem?_map, List.getElem?_range' (by omega)]
  simp [Nat.add_comm]

/-! ### The step on a whole instruction -/

/-- RESUME_CHECK and END_CHECK let a ready core go on to the decoder. -/
theorem fetch_eq_of_ready {s : State} (h : Ready s) : fetch s = fetchedOf s.pc (decode (s.window maxLength s.pc)) :=
  fetch_of_ready (Bool.eq_false_iff.mpr (mt (blocked_iff s).mp h.1)) h.2

/-- The window at a whole instruction starts with its bytes. -/
theorem window_eq_operandBytes {s : State} {op : Opcode} (h : s.pc + op.length ≤ s.len) (hpc : s.pc < s.len) :
    ∃ t, s.window maxLength s.pc = byte s 0 :: (operandBytes (byte s) op ++ t) := by
  cases op with
  | load | add | sub | mul | div | eq | neq | gte | lte | lt | gt => exact ⟨[], window_four h⟩
  | jmp | jmpf | jmpb | jmpe => exact ⟨_, window_two h⟩
  | hlt | illegal => exact ⟨_, window_cons _ _ _ hpc⟩

/-- At a whole instruction of opcode `op`, a ready core fetches what the decoder makes of its operand bytes. -/
theorem fetch_of_whole {s : State} {op : Opcode} (hs : Ready s) (hop : decodeOpcode hwConfig (byte s 0) = op)
    (hlen : s.pc + op.length ≤ s.len) :
    ∃ t, fetch s = fetchedOf s.pc (decodeOperands hwConfig (byte s 0) (operandBytes (byte s) op ++ t) op) := by
  obtain ⟨t, ht⟩ := window_eq_operandBytes hlen hs.2
  refine ⟨t, ?_⟩
  rw [fetch_eq_of_ready hs, ht, decode, decodeWith, hop]

/-- Settles O8: the first bad register byte stops VALIDATE; without one, the decoded operands encode to the bytes read. -/
theorem registerBytesAreValidated : Obligations.RegisterBytesAreValidated := by
  intro s op hs hop hlen
  obtain ⟨t, hfetch⟩ := fetch_of_whole hs hop hlen
  constructor
  · intro k hk hbad hgood
    rw [decodeOperands_of_firstBad _ _ ⟨hk, hbad, hgood⟩] at hfetch
    exact ⟨_, by rw [step, hfetch]; rfl, rfl⟩
  · intro hgood
    obtain ⟨i, hdecode, hencode⟩ := decodeOperands_of_registers (c := hwConfig) (byte s 0) t hgood
    rw [hdecode] at hfetch
    refine ⟨i, hfetch, opcode_of_decodeOperands hdecode, fun k hk => ?_⟩
    obtain ⟨h1, hk⟩ := regPositions_within hk
    rw [encode, encodeWith, hencode]
    exact getElem?_cons_operandBytes _ _ h1 hk

/-! ### LOAD's immediate -/

/-- If the decoder gave a LOAD, the third and fourth byte are its immediate's. -/
theorem bytes_of_decode_load {bytes : List Byte} {rd : Reg} {v : Imm} (h : decode bytes = .ok (.load rd v)) :
    ∃ hi lo, bytes[2]? = some hi ∧ bytes[3]? = some lo ∧ v = immOfBytes hi lo := by
  match bytes, h with
  | b0 :: rest, h =>
    have hop : Opcode.load = decodeOpcode hwConfig b0 := opcode_of_decodeOperands h
    rw [decode, decodeWith, ← hop] at h
    obtain ⟨_, hi, lo, _, rfl, hload⟩ := decodeFRI_ok h
    exact ⟨hi, lo, rfl, rfl, (Instr.load.inj hload).2⟩

/-- A byte the window holds is the instruction's byte at that position. -/
theorem eq_byte_of_window {s : State} {n k : Nat} {b : Byte} (h : (s.window n s.pc)[k]? = some b) : b = byte s k := by
  rw [getElem?_window] at h
  split at h
  · exact (Option.some.inj h).symm
  · exact absurd h nofun

/-- A fetched LOAD's immediate is bytes 2 and 3 of the instruction, high byte first (R67). -/
theorem imm_of_fetch_load {s : State} {rd : Reg} {v : Imm} (h : fetch s = .instr (.load rd v)) :
    v = immOfBytes (byte s 2) (byte s 3) := by
  obtain ⟨-, -, hdecode⟩ := fetch_eq_instr.mp h
  obtain ⟨hi, lo, hhi, hlo, rfl⟩ := bytes_of_decode_load hdecode
  rw [eq_byte_of_window hhi, eq_byte_of_window hlo]

/-- LOAD leaves the unsigned value of its immediate in its register (R130). -/
theorem reg_of_execLoad {rd : Reg} {v : Imm} {s t : State} (h : execLoad rd v s = .next t) :
    t.reg rd = (v.toNat : Int) := by
  obtain rfl := Host.Outcome.next.inj h
  rw [reg_complete, reg_setReg_self _ _ (immValue_inS32 v), immValue_eq]

/-- Settles O9: the decoder's two immediate bytes are the instruction's, and 16 bits fit the signed range. -/
theorem loadImmediateIsBigEndianUnsigned : Obligations.LoadImmediateIsBigEndianUnsigned := by
  intro s rd v h
  have hreg := reg_of_execLoad (rd := rd) (v := v) (s := s) rfl
  have hv := v.isLt
  have hbytes : v.toNat = 256 * (byte s 2).toNat + (byte s 3).toNat := by
    rw [imm_of_fetch_load h, immOfBytes_toNat]
  refine ⟨_, step_of_instr h, ?_, ?_, ?_⟩ <;> rw [hreg] <;> omega

end Sys2Proof.Proofs
end

section
/-! PROOF. Where a step leaves `pc` (40_cycle.md R110): past the instruction's bytes when it completes and is no taken
jump, at the target of a taken jump, and where it stood after a fault. -/

open Sys2Proof Sys2Proof.Machine Sys2Proof.Claims

namespace Sys2Proof.Proofs

/-! ### The operations that fall through -/

theorem pc_of_writeChecked {op : Opcode} {rd : Reg} {v : Int} {s t : State}
    (h : writeChecked op rd v s = .next t) : t.pc = s.nextPc op := by
  obtain ⟨-, rfl⟩ := writeChecked_next h
  rfl

theorem pc_of_execDiv {rs1 rs2 rd : Reg} {s t : State} (h : execDiv rs1 rs2 rd s = .next t) :
    t.pc = s.nextPc .div := by
  have hq := next_of_guard h
  split at hq
  · obtain rfl := Host.Outcome.next.inj hq
    rfl
  · exact (raise_ne_next _ _ _ _ _ hq).elim

theorem pc_of_compareWith {op : Opcode} {rel : Int → Int → Bool} {rs1 rs2 : Reg} {s t : State}
    (h : compareWith op rel rs1 rs2 s = .next t) : t.pc = s.nextPc op := by
  obtain rfl := compareWith_next h
  rfl

/-- With the equal flag false, JMPE falls through (R170). -/
theorem pc_of_execJmpe_not_taken {ra : Reg} {s t : State} (hflag : s.flag ≠ true) (h : execJmpe ra s = .next t) :
    t.pc = s.nextPc .jmpe := by
  rw [execJmpe, if_neg hflag] at h
  obtain rfl := Host.Outcome.next.inj h
  rfl

/-! ### The jumps -/

/-- A checked jump that completes lands on its target: a legal target is no negative number. -/
theorem pc_of_checkTarget {op : Opcode} {ra : Reg} {v : Int} {s t : State} (h : checkTarget op ra v s = .next t) :
    (t.pc : Int) = v := by
  obtain ⟨h0, -, rfl⟩ := checkTarget_next h
  exact Int.toNat_of_nonneg h0

theorem pc_of_execJmp {ra : Reg} {s t : State} (h : execJmp ra s = .next t) : (t.pc : Int) = s.reg ra :=
  pc_of_checkTarget h

theorem pc_of_execJmpf {ra : Reg} {s t : State} (h : execJmpf ra s = .next t) :
    (t.pc : Int) = s.pc + 2 + s.reg ra :=
  pc_of_checkTarget (next_of_guard h)

theorem pc_of_execJmpb {ra : Reg} {s t : State} (h : execJmpb ra s = .next t) :
    (t.pc : Int) = s.pc + 2 - s.reg ra :=
  pc_of_checkTarget (next_of_guard h)

theorem pc_of_execJmpe_taken {ra : Reg} {s t : State} (hflag : s.flag = true) (h : execJmpe ra s = .next t) :
    (t.pc : Int) = s.reg ra := by
  rw [execJmpe, if_pos hflag] at h
  exact pc_of_checkTarget h

/-! ### Instructions and steps -/

/-- A completed instruction that is no taken jump moves `pc` by its length. -/
theorem pc_of_exec_not_jumpTaken {i : Instr} {s t : State} (hjump : ¬ JumpTaken i s) (h : exec i s = .next t) :
    t.pc = s.pc + i.length := by
  cases i with
  | load | hlt | illegal =>
    obtain rfl := Host.Outcome.next.inj h
    rfl
  | add | sub | mul => exact pc_of_writeChecked h
  | div => exact pc_of_execDiv h
  | eq | neq | gte | lte | lt | gt => exact pc_of_compareWith h
  | jmp ra => exact absurd (.inl ⟨ra, rfl⟩) hjump
  | jmpf ra => exact absurd (.inr (.inl ⟨ra, rfl⟩)) hjump
  | jmpb ra => exact absurd (.inr (.inr (.inl ⟨ra, rfl⟩))) hjump
  | jmpe ra => exact pc_of_execJmpe_not_taken (fun hflag => hjump (.inr (.inr (.inr ⟨⟨ra, rfl⟩, hflag⟩)))) h

/-- An instruction that completes is never reported as a fault. -/
theorem completedOutcome_ne_fault (i : Instr) (f : Fault) : completedOutcome i ≠ .fault f := by
  unfold completedOutcome
  split <;> nofun

/-- An instruction reported as a fault leaves the whole state (R183). -/
theorem state_of_execCommand_fault {i : Instr} {s t : State} {f : Fault} (h : execCommand i s = (.fault f, t)) :
    t = s := by
  unfold execCommand at h
  split at h <;> obtain ⟨ho, ht⟩ := Prod.mk.inj h
  · exact absurd ho (completedOutcome_ne_fault i f)
  · exact ht.symm
  · exact ht.symm

/-- A step reported as a fault leaves the whole state (R183), whether the fetch raised it or the instruction did. -/
theorem state_of_stepCommand_fault {s t : State} {f : Fault} (h : stepCommand s = (.fault f, t)) : t = s := by
  unfold stepCommand at h
  split at h
  · exact (Prod.mk.inj h).2.symm
  · exact absurd (Prod.mk.inj h).1 nofun
  · exact (Prod.mk.inj h).2.symm
  · exact state_of_execCommand_fault h

/-- Settles O39: a step that fetched an instruction is that instruction, and each of them leaves `pc` at its length
beyond or at its target; a fault leaves the state. -/
theorem sequentialAdvance : Obligations.SequentialAdvance := by
  refine ⟨fun s t i hfetch hstep => ?_, fun _ _ _ h => congrArg State.pc (state_of_stepCommand_fault h)⟩
  rw [step_of_instr hfetch] at hstep
  refine ⟨fun hjump => pc_of_exec_not_jumpTaken hjump hstep, ?_, ?_, ?_, ?_⟩ <;> rintro ra rfl
  · exact pc_of_execJmp hstep
  · exact pc_of_execJmpf hstep
  · exact pc_of_execJmpb hstep
  · exact fun hflag => pc_of_execJmpe_taken hflag hstep

end Sys2Proof.Proofs
end

section
/-! PROOF. How a step ends (60_exceptions.md): a fault names the offset of its instruction and changes no state (R182,
R183), and a graceful halt is a next state (R189). Both read the report of `stepCommand` back as the answer of `step`. -/

open Sys2Proof Sys2Proof.Machine Sys2Proof.Claims

namespace Sys2Proof.Proofs

/-! ### The report and the answer -/

/-- What a step must have answered for the host to be told this outcome and this state. -/
def answerOf : StepOutcome × State → Result
  | (.running, t) => .next t
  | (.halted _, t) => .next t
  | (.fault f, _) => .fault f
  | (.refused r, _) => .refused r

/-- An instruction that completes is reported as Running or Halted, so its state is a next state. -/
theorem answerOf_completedOutcome (i : Instr) (t : State) : answerOf (completedOutcome i, t) = .next t := by
  unfold completedOutcome
  split <;> rfl

theorem answerOf_execCommand (i : Instr) (s : State) : answerOf (execCommand i s) = exec i s := by
  unfold execCommand
  split
  next h => rw [answerOf_completedOutcome, h]
  next h => exact h.symm
  next h => exact h.symm

/-- The report of a step says what `step` answered. -/
theorem answerOf_stepCommand (s : State) : answerOf (stepCommand s) = step s := by
  unfold stepCommand step
  cases fetch s with
  | notResumed | endOfProgram | fault => rfl
  | instr i => exact answerOf_execCommand i s

theorem step_of_stepCommand_fault {s t : State} {f : Fault} (h : stepCommand s = (.fault f, t)) :
    step s = .fault f := by
  rw [← answerOf_stepCommand, h, answerOf]

theorem step_of_stepCommand_halted {s t : State} {r : HaltReason} (h : stepCommand s = (.halted r, t)) :
    step s = .next t := by
  rw [← answerOf_stepCommand, h, answerOf]

/-! ### The offset a fault names -/

/-- A fault among the answers names `pc` as the offset of its instruction (R182). -/
def NamesPc (s : State) (a : Result) : Prop := ∀ f, a = .fault f → f.record.pc = s.pc

theorem namesPc_next (s t : State) : NamesPc s (.next t) := nofun

theorem namesPc_raise {k : FaultRecord → Fault} (hk : ∀ r, (k r).record = r) (op : Opcode) (o : Option (Nat × Byte))
    (s : State) : NamesPc s (raise k op o s) := by
  intro f h
  rw [← Host.Outcome.fault.inj h, hk]

theorem namesPc_ite {c : Prop} [Decidable c] {s : State} {a b : Result} (ha : NamesPc s a) (hb : NamesPc s b) :
    NamesPc s (if c then a else b) := by
  split
  · exact ha
  · exact hb

theorem namesPc_writeChecked (op : Opcode) (rd : Reg) (v : Int) (s : State) : NamesPc s (writeChecked op rd v s) :=
  namesPc_ite (namesPc_next _ _) (namesPc_raise (fun _ => rfl) _ _ _)

theorem namesPc_checkTarget (op : Opcode) (ra : Reg) (v : Int) (s : State) : NamesPc s (checkTarget op ra v s) :=
  namesPc_ite (namesPc_raise (fun _ => rfl) _ _ _)
    (namesPc_ite (namesPc_raise (fun _ => rfl) _ _ _) (namesPc_next _ _))

theorem namesPc_execDiv (rs1 rs2 rd : Reg) (s : State) : NamesPc s (execDiv rs1 rs2 rd s) :=
  namesPc_ite (namesPc_raise (fun _ => rfl) _ _ _)
    (namesPc_ite (namesPc_next _ _) (namesPc_raise (fun _ => rfl) _ _ _))

theorem namesPc_exec (i : Instr) (s : State) : NamesPc s (exec i s) := by
  cases i with
  | load | hlt | illegal | eq | neq | gte | lte | lt | gt => exact namesPc_next _ _
  | add | sub | mul => exact namesPc_writeChecked _ _ _ _
  | div => exact namesPc_execDiv _ _ _ _
  | jmp => exact namesPc_checkTarget _ _ _ _
  | jmpf | jmpb => exact namesPc_ite (namesPc_raise (fun _ => rfl) _ _ _) (namesPc_checkTarget _ _ _ _)
  | jmpe => exact namesPc_ite (namesPc_checkTarget _ _ _ _) (namesPc_next _ _)

/-- LENGTH_CHECK and VALIDATE record the offset they were given. -/
theorem record_pc_of_fetchedOf {pc : Nat} {d : Except DecodeError Instr} {f : Fault} (h : fetchedOf pc d = .fault f) :
    f.record.pc = pc := by
  unfold fetchedOf at h
  split at h
  · exact absurd h nofun
  · exact absurd h nofun
  · rw [← Fetched.fault.inj h, Fault.record]
  · rw [← Fetched.fault.inj h, Fault.record]

/-- Only the decoder's answer makes a fetch a fault. -/
theorem record_pc_of_fetch {s : State} {f : Fault} (h : fetch s = .fault f) : f.record.pc = s.pc := by
  unfold fetch at h
  split at h
  · exact absurd h nofun
  · split at h
    · exact absurd h nofun
    · exact record_pc_of_fetchedOf h

/-- Whichever phase raised it, a step's fault names the offset of the faulting instruction. -/
theorem record_pc_of_step_fault {s : State} {f : Fault} (h : step s = .fault f) : f.record.pc = s.pc := by
  obtain hfetch | ⟨i, -, hexec⟩ := step_fault_cases h
  · exact record_pc_of_fetch hfetch
  · exact namesPc_exec i s f hexec

/-- Settles O36: the report of a fault carries the state before the step, and every phase that raises a fault records
that state's `pc`. -/
theorem faultsArePrecise : Obligations.FaultsArePrecise :=
  fun _ _ _ h => ⟨state_of_stepCommand_fault h, record_pc_of_step_fault (step_of_stepCommand_fault h)⟩

/-! ### Graceful halts -/

/-- An instruction reported as Halted has that halt reason. -/
theorem haltReason_of_completedOutcome {i : Instr} {r : HaltReason} (h : completedOutcome i = .halted r) :
    haltReason i = some r := by
  unfold completedOutcome at h
  split at h
  next hr => rw [hr, StepOutcome.halted.inj h]
  next => exact absurd h nofun

/-- The halting instructions are HLT and ILLEGAL: each has its own reason (R150, R175). -/
theorem haltReason_eq_some {i : Instr} {r : HaltReason} (h : haltReason i = some r) :
    (i = .hlt ∧ r = .hltExecuted) ∨ ∃ b, i = .illegal b ∧ r = .illegalOpcode b := by
  cases i with
  | hlt => exact .inl ⟨rfl, (Option.some.inj h).symm⟩
  | illegal b => exact .inr ⟨b, rfl, (Option.some.inj h).symm⟩
  | load | add | sub | mul | div | jmp | jmpf | jmpb | eq | neq | gte | lte | lt | gt | jmpe => exact absurd h nofun

/-- If a step is reported as Halted, the core was blocked, the program had ended, or HLT or ILLEGAL was executed. -/
theorem stepCommand_halted_cases {s t : State} {r : HaltReason} (h : stepCommand s = (.halted r, t)) :
    (r = .notResumed ∧ t = s) ∨ (r = .endOfProgram ∧ t = s.halt) ∨
      ((r = .hltExecuted ∨ ∃ b, r = .illegalOpcode b) ∧ t = s.completeHalted (s.pc + 1)) := by
  obtain ⟨hfetch, rfl⟩ | ⟨hfetch, rfl⟩ | ⟨i, hfetch, hexec⟩ := step_next_cases (step_of_stepCommand_halted h)
  · simp only [stepCommand, hfetch, Prod.mk.injEq, StepOutcome.halted.injEq] at h
    exact .inl ⟨h.1.symm, rfl⟩
  · simp only [stepCommand, hfetch, Prod.mk.injEq, StepOutcome.halted.injEq] at h
    exact .inr (.inl ⟨h.1.symm, rfl⟩)
  · simp only [stepCommand, hfetch, execCommand, hexec, Prod.mk.injEq] at h
    obtain ⟨rfl, rfl⟩ | ⟨b, rfl, rfl⟩ := haltReason_eq_some (haltReason_of_completedOutcome h.1)
    · exact .inr (.inr ⟨.inl rfl, (Host.Outcome.next.inj hexec).symm⟩)
    · exact .inr (.inr ⟨.inr ⟨b, rfl⟩, (Host.Outcome.next.inj hexec).symm⟩)

/-- Settles O38: a step reported as Halted answered a next state, and the state of each reason has the `pc` R189 gives. -/
theorem gracefulHaltsAreNotFaults : Obligations.GracefulHaltsAreNotFaults := by
  intro s t r h
  have hstep := step_of_stepCommand_halted h
  refine ⟨hstep, fun f hf => absurd (hstep.symm.trans hf) nofun, ?_⟩
  obtain ⟨rfl, rfl⟩ | ⟨rfl, rfl⟩ | ⟨rfl | ⟨b, rfl⟩, rfl⟩ := stepCommand_halted_cases h
  · exact ⟨nofun, nofun, nofun⟩
  · exact ⟨nofun, nofun, fun _ => rfl⟩
  · exact ⟨fun _ => rfl, nofun, nofun⟩
  · exact ⟨nofun, fun _ _ => rfl, nofun⟩

end Sys2Proof.Proofs
end

section
/-! PROOF. The opcode map inverts (30_encoding.md R66), and the decoder and the encoder of instructions invert each
other (R60 to R74), for every lawful `Config`. -/

open Sys2Proof Sys2Proof.Machine Sys2Proof.Claims

namespace Sys2Proof.Proofs

/-- Settles O1: the words are closed terms, and the decoder computes. -/
theorem specWordsDecode : Obligations.SpecWordsDecode :=
  ⟨rfl, rfl, rfl, rfl, rfl, rfl, rfl, rfl, rfl⟩

/-- Refutes O5: byte 200 is the sentinel, so it re-encodes to itself without being a real code (log entry 11). -/
theorem not_onlyRealCodesReencodeToThemselves : ¬ Obligations.OnlyRealCodesReencodeToThemselves :=
  fun h => absurd ((h 200).mp (by decide)) (by decide)

/-! ### The opcode map -/

/-- A byte without a code in the map is ILLEGAL (R64). -/
theorem decodeOpcode_of_ge (c : Config) {b : Byte} (h : ¬ b.toNat < 16) : decodeOpcode c b = .illegal := by
  rw [decodeOpcode, if_neg h]

section Lawful

variable {c : Config} (hc : c.Lawful)
include hc

/-- Decode undoes encode on all 17 opcodes (R66). -/
theorem decodeOpcode_encodeOpcode (op : Opcode) : decodeOpcode c (encodeOpcode c op) = op := by
  by_cases h : op = .illegal
  · subst h
    exact decodeOpcode_of_ge c (mt (encodeOpcode_toNat_lt_iff hc .illegal).mp (fun h => h rfl))
  · have hidx := idxOf_lt_of_real hc h
    have hcode := encodeOpcode_toNat hc h
    rw [decodeOpcode_eq_getElem hc (hcode.symm ▸ hidx)]
    simp only [hcode, List.getElem_idxOf hidx]

/-- Encode undoes decode on the codes 0..15 (R66). -/
theorem encodeOpcode_decodeOpcode {b : Byte} (h : b.toNat < 16) : encodeOpcode c (decodeOpcode c b) = b := by
  have hreal := (decodeOpcode_ne_illegal_iff hc b).mpr h
  have hlen : b.toNat < c.opcodeMap.length := hc.1 ▸ h
  refine BitVec.eq_of_toNat_eq ?_
  rw [encodeOpcode_toNat hc hreal, decodeOpcode_eq_getElem hc hlen, hc.2.1.idxOf_getElem]

end Lawful

/-- Settles O4: the map and its codes invert each other, and a byte above 15 becomes ILLEGAL, whose code is 200. -/
theorem opcodeMapInverts : Obligations.OpcodeMapInverts := by
  intro c hc
  have hinverse : Function.LeftInverse (decodeOpcode c) (encodeOpcode c) := decodeOpcode_encodeOpcode hc
  refine ⟨fun _ _ h => hinverse.injective h, hinverse, fun b => ?_⟩
  split
  · exact encodeOpcode_decodeOpcode hc ‹_›
  · rw [decodeOpcode_of_ge c ‹_›]
    rfl

/-! ### Decode of encode -/

/-- The three registers are read back in the order they were written in, whichever R72 gives. -/
theorem decodeFRRR_encodeFRRR (c : Config) (b0 : Byte) (mk : Reg → Reg → Reg → Instr) (rs1 rs2 rd : Reg)
    (rest : List Byte) : decodeFRRR c b0 mk (encodeFRRR c rs1 rs2 rd ++ rest) = .ok (mk rs1 rs2 rd) := by
  cases hd : c.arithDestPos <;> simp [decodeFRRR, encodeFRRR, hd]

theorem decodeFRRX_registers (b0 : Byte) (mk : Reg → Reg → Byte → Instr) (rs1 rs2 : Reg) (pad : Byte)
    (rest : List Byte) : decodeFRRX b0 mk (regByte rs1 :: regByte rs2 :: pad :: rest) = .ok (mk rs1 rs2 pad) := by
  simp [decodeFRRX]

theorem decodeFR_register (b0 : Byte) (mk : Reg → Instr) (ra : Reg) (rest : List Byte) :
    decodeFR b0 mk (regByte ra :: rest) = .ok (mk ra) := by
  simp [decodeFR]

/-- The operand bytes of an instruction are read back as its operands. -/
theorem decodeOperands_encodeOperands (c : Config) (b0 : Byte) (rest : List Byte) {i : Instr}
    (h : i.opcode ≠ .illegal) : decodeOperands c b0 (encodeOperands c i ++ rest) i.opcode = .ok i := by
  cases i with
  | load rd v => simp [decodeOperands, encodeOperands, decodeFRI, Instr.opcode]
  | add | sub | mul | div => exact decodeFRRR_encodeFRRR c b0 _ _ _ _ rest
  | jmp | jmpf | jmpb | jmpe => exact decodeFR_register b0 _ _ rest
  | eq | neq | gte | lte | lt | gt => exact decodeFRRX_registers b0 _ _ _ _ rest
  | hlt => rfl
  | illegal => exact absurd rfl h

/-- The encoding of an instruction, with any bytes after it, decodes by the instruction's own opcode. -/
theorem decodeWith_encodeWith_append {c : Config} (hc : c.Lawful) (i : Instr) (rest : List Byte) :
    decodeWith c (encodeWith c i ++ rest) =
      decodeOperands c (encodeOpcode c i.opcode) (encodeOperands c i ++ rest) i.opcode := by
  rw [encodeWith, List.cons_append, decodeWith, decodeOpcode_encodeOpcode hc]

/-- Settles O6: the opcode's byte and the operand bytes are each read back. -/
theorem decodeOfEncodeIsTheInstruction : Obligations.DecodeOfEncodeIsTheInstruction := by
  refine fun c rest hc => ⟨fun i hi => ?_, fun b0 => ?_⟩
  · rw [decodeWith_encodeWith_append hc, decodeOperands_encodeOperands c _ rest hi]
  · rw [decodeWith_encodeWith_append hc]
    rfl

/-! ### Encode of decode -/

/-- The bytes an instruction's operands were decoded from are the ones they encode to. -/
theorem encodeOperands_of_decodeOperands {c : Config} {b0 : Byte} {rest : List Byte} {op : Opcode} {i : Instr}
    (h : decodeOperands c b0 rest op = .ok i) : ∃ t, rest = encodeOperands c i ++ t := by
  cases op with
  | load =>
    obtain ⟨rd, hi, lo, t, rfl, rfl⟩ := decodeFRI_ok h
    exact ⟨t, by simp [encodeOperands]⟩
  | add | sub | mul | div =>
    obtain ⟨_, _, _, t, rfl, hrest⟩ := decodeFRRR_ok h
    exact ⟨t, hrest⟩
  | jmp | jmpf | jmpb | jmpe =>
    obtain ⟨_, t, hrest, rfl⟩ := decodeFR_ok h
    exact ⟨t, hrest⟩
  | eq | neq | gte | lte | lt | gt =>
    obtain ⟨_, _, _, t, hrest, rfl⟩ := decodeFRRX_ok h
    exact ⟨t, hrest⟩
  | hlt | illegal =>
    obtain rfl := Except.ok.inj h
    exact ⟨rest, rfl⟩

/-- The number of operand bytes (R70), from the per-instruction lemmas of Laws. -/
theorem length_encodeOperands (c : Config) (i : Instr) : (encodeOperands c i).length + 1 = i.length := by
  cases i with
  | add | sub | mul | div => exact congrArg Nat.succ (Laws.EncodedLength.length_encodeFRRR c _ _ _)
  | load | hlt | jmp | jmpf | jmpb | eq | neq | gte | lte | lt | gt | jmpe | illegal => rfl

/-- Only ILLEGAL can be ill formed. -/
theorem wellFormed_of_real {i : Instr} (h : i.opcode ≠ .illegal) : i.wellFormed = true := by
  cases i with
  | illegal => exact absurd rfl h
  | load | add | sub | mul | div | hlt | jmp | jmpf | jmpb | eq | neq | gte | lte | lt | gt | jmpe => rfl

/-- What the decoder read: an opcode byte, the operand bytes of the instruction it gave, and bytes it ignored. -/
theorem decodeWith_ok {c : Config} {bytes : List Byte} {i : Instr} (h : decodeWith c bytes = .ok i) :
    ∃ b0 t, bytes = b0 :: (encodeOperands c i ++ t) ∧ decodeOpcode c b0 = i.opcode ∧
      (i.opcode = .illegal → i = .illegal b0) := by
  match bytes, h with
  | b0 :: rest, h =>
    have hop := opcode_of_decodeOperands h
    obtain ⟨t, rfl⟩ := encodeOperands_of_decodeOperands h
    refine ⟨b0, t, rfl, hop.symm, fun hillegal => ?_⟩
    rw [decodeWith, ← hop, hillegal] at h
    exact (Except.ok.inj h).symm

/-- A decoded instruction is no longer than the bytes there were. -/
theorem length_le_of_decodeWith {c : Config} {bytes : List Byte} {i : Instr} (h : decodeWith c bytes = .ok i) :
    i.length ≤ bytes.length := by
  obtain ⟨b0, t, rfl, -, -⟩ := decodeWith_ok h
  rw [List.length_cons, List.length_append, ← length_encodeOperands c i]
  omega

/-- ILLEGAL is decoded only from a byte outside 0..15, and every other instruction is well formed. -/
theorem wellFormed_of_decodeWith {c : Config} (hc : c.Lawful) {bytes : List Byte} {i : Instr}
    (h : decodeWith c bytes = .ok i) : i.wellFormed = true := by
  obtain ⟨b0, -, -, hop, hillegal⟩ := decodeWith_ok h
  by_cases hi : i.opcode = .illegal
  · have hb : ¬ b0.toNat < 16 := fun hb => (decodeOpcode_ne_illegal_iff hc b0).mpr hb (hop.trans hi)
    rw [hillegal hi]
    exact decide_eq_true (Nat.not_lt.mp hb)
  · exact wellFormed_of_real hi

/-- A real instruction encodes back to the bytes it was decoded from. -/
theorem encodeWith_of_decodeWith {c : Config} (hc : c.Lawful) {bytes : List Byte} {i : Instr}
    (h : decodeWith c bytes = .ok i) (hi : i.opcode ≠ .illegal) : encodeWith c i = bytes.take i.length := by
  obtain ⟨b0, t, rfl, hop, -⟩ := decodeWith_ok h
  have hb : b0.toNat < 16 := (decodeOpcode_ne_illegal_iff hc b0).mp (hop ▸ hi)
  rw [encodeWith, ← hop, encodeOpcode_decodeOpcode hc hb, ← length_encodeOperands c i, List.take_succ_cons,
    List.take_left]

/-- Settles O7: the decoder read the opcode's byte and the operand bytes that the encoder writes. -/
theorem encodeOfDecodeIsTheBytes : Obligations.EncodeOfDecodeIsTheBytes := by
  refine fun c bytes i hc h => ⟨wellFormed_of_decodeWith hc h, length_le_of_decodeWith h,
    encodeWith_of_decodeWith hc h, ?_⟩
  rintro b0 rfl
  obtain ⟨b, t, rfl, -, hillegal⟩ := decodeWith_ok h
  rw [List.head?_cons, Instr.illegal.inj (hillegal rfl)]

end Sys2Proof.Proofs
end

section
/-! PROOF. The producer side (30_encoding.md R75 to R91): what the instruction encoder makes of the signature table's
tokens, of the assembler's output, and of the assembler's reading of a canonical spelling. -/

open Sys2Proof Sys2Proof.Machine Sys2Proof.Claims

namespace Sys2Proof.Proofs

/-! ### The encoder's faults -/

/-- An opcode in an operand slot faults, wherever the slot stands. -/
theorem encodeParsed_of_opcode_operand (c : Config) {p : ParsedInstr} {op op' : Opcode}
    (hop : p.opcodeSlot = .opcode op)
    (h : p.operand1 = some (.opcode op') ∨ p.operand2 = some (.opcode op') ∨ p.operand3 = some (.opcode op')) :
    encodeParsed c p = .error .badOperandSlot := by
  simp only [encodeParsed, hop]
  split
  next h1 h2 h3 =>
    obtain h | h | h := h
    · exact absurd (h ▸ h1) nofun
    · exact absurd (h ▸ h2) nofun
    · exact absurd (h ▸ h3) nofun
  next => rfl

/-- Settles O11: the encoder looks at the opcode slot first, and then needs the bytes of all three operand slots. -/
theorem encoderFaultsAreDistinct : Obligations.EncoderFaultsAreDistinct := by
  refine fun c p => ⟨fun hop => ?_, fun op op' hop h => encodeParsed_of_opcode_operand c hop h⟩
  unfold encodeParsed
  split
  next op h => exact absurd h (hop op)
  next => rfl
  next => rfl

/-! ### The pad byte of a comparison -/

/-- The pad byte of a comparison. -/
def padByte : Instr → Option Byte
  | .eq _ _ pad | .neq _ _ pad | .gte _ _ pad | .lte _ _ pad | .lt _ _ pad | .gt _ _ pad => some pad
  | .load _ _ | .add _ _ _ | .sub _ _ _ | .mul _ _ _ | .div _ _ _ | .hlt | .jmp _ | .jmpf _ | .jmpb _ | .jmpe _
  | .illegal _ => none

/-- The instruction is a comparison of these registers with this pad byte. -/
def ComparisonOf (i : Instr) (rs1 rs2 : Reg) (pad : Byte) : Prop :=
  i = .eq rs1 rs2 pad ∨ i = .neq rs1 rs2 pad ∨ i = .gte rs1 rs2 pad ∨ i = .lte rs1 rs2 pad ∨ i = .lt rs1 rs2 pad ∨
    i = .gt rs1 rs2 pad

theorem padByte_eq_some_iff (i : Instr) (pad : Byte) :
    padByte i = some pad ↔ ∃ rs1 rs2, ComparisonOf i rs1 rs2 pad := by
  cases i <;> simp [padByte, ComparisonOf]

/-! ### The signature table -/

theorem encodeParsed_parsedFRRR (c : Config) (op : Opcode) (rs1 rs2 rd : Reg) :
    encodeParsed c (parsedFRRR c op rs1 rs2 rd) = .ok (encodeOpcode c op :: encodeFRRR c rs1 rs2 rd) := by
  unfold parsedFRRR encodeFRRR
  cases c.arithDestPos <;> rfl

/-- The pad operand is the register whose byte the pad is. -/
theorem encodeParsed_parsedFRRX (c : Config) {op : Opcode} {rs1 rs2 : Reg} {pad : Byte} {p : ParsedInstr}
    (h : parsedFRRX op rs1 rs2 pad = some p) :
    encodeParsed c p = .ok [encodeOpcode c op, regByte rs1, regByte rs2, pad] := by
  unfold parsedFRRX at h
  split at h
  next r hr =>
    obtain rfl := Option.some.inj h
    rw [← regByte_of_regOfByte hr]
    rfl
  next => exact absurd h nofun

theorem parsedFRRX_eq_none_iff {op : Opcode} {rs1 rs2 : Reg} {pad : Byte} :
    parsedFRRX op rs1 rs2 pad = none ↔ 31 < pad.toNat := by
  rw [← regOfByte_eq_none]
  unfold parsedFRRX
  split
  next h => simp [h]
  next h => simp [h]

/-- The signature table's tokens give the instruction's bytes. -/
theorem encodeParsed_parsedOf {c : Config} {i : Instr} {p : ParsedInstr} (h : parsedOf c i = some p) :
    encodeParsed c p = .ok (encodeWith c i) := by
  cases i with
  | add | sub | mul | div =>
    obtain rfl := Option.some.inj h
    exact encodeParsed_parsedFRRR c _ _ _ _
  | eq | neq | gte | lte | lt | gt => exact encodeParsed_parsedFRRX c h
  | load | hlt | jmp | jmpf | jmpb | jmpe | illegal =>
    obtain rfl := Option.some.inj h
    rfl

/-- Only a pad byte that names no register keeps an instruction out of the table. -/
theorem parsedOf_eq_none_iff (c : Config) (i : Instr) :
    parsedOf c i = none ↔ ∃ pad, padByte i = some pad ∧ 31 < pad.toNat := by
  cases i with
  | eq | neq | gte | lte | lt | gt => simp [parsedOf, padByte, parsedFRRX_eq_none_iff]
  | load | add | sub | mul | div | hlt | jmp | jmpf | jmpb | jmpe | illegal => simp [parsedOf, padByte]

/-- Settles O12: the table's tokens give the instruction's bytes, and only the pad token may be missing. -/
theorem signatureTableEncodesTheInstruction : Obligations.SignatureTableEncodesTheInstruction := by
  refine fun c i => ⟨fun _ h => encodeParsed_parsedOf h, (parsedOf_eq_none_iff c i).trans ⟨?_, ?_⟩⟩
  · rintro ⟨pad, hi, hpad⟩
    obtain ⟨rs1, rs2, hi⟩ := (padByte_eq_some_iff i pad).mp hi
    exact ⟨rs1, rs2, pad, hpad, hi⟩
  · rintro ⟨rs1, rs2, pad, hpad, hi⟩
    exact ⟨pad, (padByte_eq_some_iff i pad).mpr ⟨rs1, rs2, hi⟩, hpad⟩

/-! ### Accepted lines

The signature check gives an opcode exactly the operand bytes of its format, with register bytes where the format has
them; such bytes always decode. -/

/-- The byte at position `k` of an instruction whose bytes after the opcode byte are `l`. -/
def byteAfterOpcode (l : List Byte) (k : Nat) : Byte := l.getD (k - 1) 0

/-- As many bytes as the opcode takes are its operand bytes. -/
theorem operandBytes_byteAfterOpcode {op : Opcode} {l : List Byte} (h : l.length + 1 = op.length) :
    operandBytes (byteAfterOpcode l) op = l := by
  refine List.ext_getElem (by simp [operandBytes, ← h]) fun k _ hk => ?_
  simp [operandBytes, byteAfterOpcode, hk]

/-- An opcode's byte with good operand bytes is the encoding of an instruction, which the decoder reads from it. -/
theorem exists_instr_of_registers {c : Config} (hc : c.Lawful) {op : Opcode} {f : Nat → Byte}
    (h : ∀ k ∈ op.format.regPositions, (f k).toNat ≤ 31) :
    ∃ i, decodeWith c (encodeOpcode c op :: operandBytes f op) = .ok i ∧
      encodeWith c i = encodeOpcode c op :: operandBytes f op := by
  obtain ⟨i, hdecode, hencode⟩ := decodeOperands_of_registers (c := c) (encodeOpcode c op) [] h
  rw [List.append_nil] at hdecode
  refine ⟨i, ?_, by rw [encodeWith, opcode_of_decodeOperands hdecode, hencode]⟩
  rw [decodeWith, decodeOpcode_encodeOpcode hc, hdecode]

/-- A Parsed Instruction the signature check accepts encodes to its opcode's byte and good operand bytes. -/
theorem encodeParsed_of_checkSignature (c : Config) {op : Opcode} {fm : Form} {p : ParsedInstr}
    (h : checkSignature op fm = .ok p) :
    ∃ l, encodeParsed c p = .ok (encodeOpcode c op :: l) ∧ l.length + 1 = op.length ∧
      ∀ k ∈ op.format.regPositions, (byteAfterOpcode l k).toNat ≤ 31 := by
  have hreg : ∀ r : Reg, (regByte r).toNat ≤ 31 := fun r => by rw [regByte_toNat]; omega
  obtain ⟨r, v, hfmt, rfl⟩ | ⟨a, b, d, hfmt, rfl⟩ | ⟨a, b, hfmt, rfl⟩ | ⟨a, hfmt, rfl⟩ | ⟨hfmt, rfl⟩ :=
    checkSignature_ok h
  · exact ⟨[regByte r, immHi v, immLo v], rfl, by rw [Opcode.length, hfmt]; rfl, by
      simp [hfmt, Format.regPositions, byteAfterOpcode, hreg]⟩
  · exact ⟨[regByte a, regByte b, regByte d], rfl, by rw [Opcode.length, hfmt]; rfl, by
      simp [hfmt, Format.regPositions, byteAfterOpcode, hreg]⟩
  · exact ⟨[regByte a, regByte b, regByte 0], rfl, by rw [Opcode.length, hfmt]; rfl, by
      simp [hfmt, Format.regPositions, byteAfterOpcode, hreg]⟩
  · exact ⟨[regByte a], rfl, by rw [Opcode.length, hfmt]; rfl, by
      simp [hfmt, Format.regPositions, byteAfterOpcode, hreg]⟩
  · exact ⟨[], rfl, by rw [Opcode.length, hfmt]; rfl, by simp [hfmt, Format.regPositions]⟩

/-- An accepted line passed the signature check. -/
theorem parseLine_ok {line : List Char} {p : ParsedInstr} (h : parseLine line = .ok p) :
    ∃ op fm, checkSignature op fm = .ok p := by
  unfold parseLine at h
  split at h
  · exact absurd h nofun
  · split at h
    · exact absurd h nofun
    · exact ⟨_, _, h⟩

/-- The bytes of a line, or its faults, are those of its Parsed Instruction. -/
theorem assembleLine_of_parseLine {c : Config} {line : List Char} {p : ParsedInstr} {bytes : List Byte}
    (hp : parseLine line = .ok p) (hb : encodeParsed c p = .ok bytes) : assembleLine c line = .ok bytes := by
  rw [assembleLine, hp]
  simp only [hb]

/-- Every line is refused by the assembler, or gives the encoding of an instruction. -/
theorem assembleLine_cases {c : Config} (hc : c.Lawful) (line : List Char) :
    (∃ f, assembleLine c line = .error (.parse f)) ∨
      ∃ i, assembleLine c line = .ok (encodeWith c i) ∧ decodeWith c (encodeWith c i) = .ok i := by
  cases hp : parseLine line with
  | error f => exact .inl ⟨f, by rw [assembleLine, hp]⟩
  | ok p =>
    obtain ⟨op, fm, hcheck⟩ := parseLine_ok hp
    obtain ⟨l, henc, hlen, hregs⟩ := encodeParsed_of_checkSignature c hcheck
    obtain ⟨i, hdecode, hencode⟩ := exists_instr_of_registers hc hregs
    rw [operandBytes_byteAfterOpcode hlen] at hdecode hencode
    rw [← hencode] at hdecode henc
    exact .inr ⟨i, assembleLine_of_parseLine hp henc, hdecode⟩

/-- Settles O13: what the signature check accepts has the operand bytes of its opcode's format. -/
theorem acceptedLinesAreWholeInstructions : Obligations.AcceptedLinesAreWholeInstructions := by
  intro c line hc
  obtain ⟨f, h⟩ | ⟨i, h, hdecode⟩ := assembleLine_cases hc line
  · rw [h]
    exact ⟨nofun, nofun⟩
  · rw [h]
    refine ⟨nofun, fun bytes hb => ?_⟩
    obtain rfl := Except.ok.inj hb
    exact ⟨i, hdecode, rfl, length_encodeOperands c i⟩

/-! ### Canonical spellings -/

/-- The word is a spelling of the operand token: one word of a line, read as the token. -/
abbrev Spells (w : List Char) (t : Token) : Prop := IsWord w ∧ operandToken w = some t

theorem operandTokens_of_spells {ws : List (List Char)} {ts : List Token} (h : List.Forall₂ Spells ws ts) :
    operandTokens ws = some ts := by
  induction h with
  | nil => rfl
  | cons hw _ ih =>
    rw [operandTokens]
    simp only [hw.2, ih]

theorem isWord_of_spells {ws : List (List Char)} {ts : List Token} (h : List.Forall₂ Spells ws ts) :
    ∀ w ∈ ws, IsWord w := by
  induction h with
  | nil => exact fun _ hw => absurd hw List.not_mem_nil
  | cons hw _ ih => exact List.forall_mem_cons.mpr ⟨hw.1, ih⟩

/-- A line that spells at most three operands is read as its opcode and their form, which the signature check then
accepts. -/
theorem parseLine_spellLine {op : Opcode} (hop : op ≠ .illegal) {ws : List (List Char)} {ts : List Token} {fm : Form}
    {p : ParsedInstr} (hws : List.Forall₂ Spells ws ts) (hlen : ws.length ≤ 3) (hform : formOf ts = some fm)
    (hcheck : checkSignature op fm = .ok p) : parseLine (spellLine op ws) = .ok p := by
  obtain ⟨hword, hlookup⟩ := mnemonic_spec op hop
  have hline : lineForm ws = some fm := by
    rw [lineForm, if_neg (Nat.not_lt.mpr hlen), operandTokens_of_spells hws, Option.bind_some, hform]
  rw [parseLine, spellLine, lineWords_spaced _ _ hword (isWord_of_spells hws)]
  simp only [hline, hlookup, hcheck]

section Spelling

variable {op : Opcode} (hop : op ≠ .illegal)
include hop

theorem parseLine_spell_f0 (hfmt : op.format = .f0) :
    parseLine (spellLine op []) = .ok ⟨.opcode op, none, none, none, none⟩ :=
  parseLine_spellLine hop .nil (by decide) rfl (if_pos hfmt)

theorem parseLine_spell_fr (hfmt : op.format = .fr) (ra : Reg) :
    parseLine (spellLine op [spellReg ra]) = .ok (parsedFR op ra) :=
  parseLine_spellLine hop (.cons (spellReg_spec ra) .nil) (by simp) rfl (if_pos hfmt)

theorem parseLine_spell_fri (hfmt : op.format = .fri) (rd : Reg) (v : Imm) :
    parseLine (spellLine op [spellReg rd, spellImm v]) =
      .ok ⟨.opcode op, some (.register rd), some (.immediate v), none, none⟩ :=
  parseLine_spellLine hop (.cons (spellReg_spec rd) (.cons (spellImm_spec v) .nil)) (by simp) rfl (if_pos hfmt)

theorem parseLine_spell_threeRegs (hfmt : op.format = .frrr) (r1 r2 r3 : Reg) :
    parseLine (spellLine op [spellReg r1, spellReg r2, spellReg r3]) =
      .ok ⟨.opcode op, some (.register r1), some (.register r2), some (.register r3), none⟩ :=
  parseLine_spellLine hop (.cons (spellReg_spec r1) (.cons (spellReg_spec r2) (.cons (spellReg_spec r3) .nil)))
    (by simp) rfl (if_pos hfmt)

/-- The spelling and the table carry arithmetic registers in the same order, whichever R72 gives. -/
theorem parseLine_spell_frrr (c : Config) (hfmt : op.format = .frrr) (rs1 rs2 rd : Reg) :
    parseLine (spellFRRR c op rs1 rs2 rd) = .ok (parsedFRRR c op rs1 rs2 rd) := by
  unfold spellFRRR parsedFRRR
  cases c.arithDestPos <;> exact parseLine_spell_threeRegs hop hfmt _ _ _

/-- The pad operand the assembler puts in is that of pad byte 0 (R89). -/
theorem parseLine_spell_frrx (hfmt : op.format = .frrx) (rs1 rs2 : Reg) :
    ∃ p, parsedFRRX op rs1 rs2 0 = some p ∧ parseLine (spellLine op [spellReg rs1, spellReg rs2]) = .ok p :=
  ⟨_, rfl, parseLine_spellLine hop (.cons (spellReg_spec rs1) (.cons (spellReg_spec rs2) .nil)) (by simp) rfl
    (if_pos hfmt)⟩

end Spelling

/-- The assembler reads the canonical spelling of a real instruction with no pad byte but 0 as the table's Parsed
Instruction. -/
theorem parseLine_spell (c : Config) {i : Instr} (hi : i.opcode ≠ .illegal)
    (hpad : ∀ pad, padByte i = some pad → pad = 0) :
    ∃ p, parsedOf c i = some p ∧ parseLine (spell c i) = .ok p := by
  cases i with
  | load rd v => exact ⟨_, rfl, parseLine_spell_fri hi rfl rd v⟩
  | add | sub | mul | div => exact ⟨_, rfl, parseLine_spell_frrr hi c rfl _ _ _⟩
  | hlt => exact ⟨_, rfl, parseLine_spell_f0 hi rfl⟩
  | jmp | jmpf | jmpb | jmpe => exact ⟨_, rfl, parseLine_spell_fr hi rfl _⟩
  | eq | neq | gte | lte | lt | gt =>
    obtain rfl := hpad _ rfl
    exact parseLine_spell_frrx hi rfl _ _
  | illegal => exact absurd rfl hi

/-- Settles O14: the assembler reads a spelling as the table's tokens, which encode to the instruction's bytes. -/
theorem spellingAssemblesBack : Obligations.SpellingAssemblesBack := by
  intro c i _ hi hpad
  obtain ⟨p, hp, hparse⟩ := parseLine_spell c hi fun pad h =>
    have ⟨rs1, rs2, h⟩ := (padByte_eq_some_iff i pad).mp h
    hpad rs1 rs2 pad h
  exact assembleLine_of_parseLine hparse (encodeParsed_parsedOf hp)

end Sys2Proof.Proofs
end

section
/-! PROOF. What each instruction does when it is executed (41_load.md to 46_illegal.md): its result and its frame where
it completes, and its fault where it does not. Each is proved once for the operation the meanings share. -/

open Sys2Proof Sys2Proof.Machine Sys2Proof.Claims

namespace Sys2Proof.Proofs

/-! ### LOAD, ADD, SUB, MUL -/

/-- What a completed instruction that writes register `rd` and falls through leaves as it was. -/
theorem frame_setReg (s : State) (rd : Reg) (v : Int) (next : Nat) :
    RegsKeptBut rd s ((s.setReg rd v).complete next) ∧ ((s.setReg rd v).complete next).flag = s.flag ∧
      ((s.setReg rd v).complete next).rem = s.rem ∧ Advances s ((s.setReg rd v).complete next) next :=
  ⟨fun _ hr => reg_setReg_ne s v hr, rfl, rfl, rfl, rfl, rfl, rfl, fun _ => rfl⟩

/-- Settles O15: an immediate fits the signed range, so the register reads as it. -/
theorem loadWritesTheImmediate : Obligations.LoadWritesTheImmediate :=
  fun rd v s => ⟨_, rfl, reg_of_execLoad rfl, frame_setReg s rd (immValue v) (s.pc + 4)⟩

/-- A result in range is written, whatever the registers are. -/
theorem writeChecked_completes {op : Opcode} (hop : op.length = 4) {rd : Reg} {s : State} {v : Int} (hv : InRange v) :
    ∃ t, writeChecked op rd v s = .next t ∧ t.reg rd = v ∧
      RegsKeptBut rd s t ∧ t.flag = s.flag ∧ t.rem = s.rem ∧ Advances s t (s.pc + 4) := by
  have hrange := (inS32_iff v).mpr hv
  exact ⟨_, writeChecked_of_range hrange, reg_setReg_self s rd hrange, by
    rw [State.nextPc, hop]
    exact frame_setReg s rd v (s.pc + 4)⟩

/-- Settles O16: the exact results of ADD, SUB and MUL are checked and written alike. -/
theorem addSubMulWriteTheExactResult : Obligations.AddSubMulWriteTheExactResult := by
  rintro rs1 rs2 rd s i v (⟨rfl, rfl⟩ | ⟨rfl, rfl⟩ | ⟨rfl, rfl⟩) hv <;> exact writeChecked_completes rfl hv

/-- A result out of range is ArithmeticOverflow, with no operand named. -/
theorem writeChecked_overflows {op : Opcode} {rd : Reg} {s : State} {v : Int} (hv : ¬ InRange v) :
    writeChecked op rd v s = .fault (.arithmeticOverflow ⟨encodeOpcode hwConfig op, s.pc, none⟩) :=
  writeChecked_of_overflow (Bool.eq_false_iff.mpr (mt (inS32_iff v).mp hv))

/-- Settles O17: the exact results of ADD, SUB and MUL are checked alike; the bytes are those of the default map. -/
theorem arithmeticOverflowFaults : Obligations.ArithmeticOverflowFaults :=
  fun _ _ _ _ => ⟨writeChecked_overflows, writeChecked_overflows, writeChecked_overflows⟩

/-! ### DIV -/

theorem trem_eq_tmod (a b : Int) : trem a b = a.tmod b := (Int.tmod_def a b).symm

/-- The remainder is smaller in size than the divisor. -/
theorem abs_trem_lt (a : Int) {b : Int} (hb : b ≠ 0) : |trem a b| < |b| := by
  rw [trem_eq_tmod, Int.abs_eq_natAbs, Int.abs_eq_natAbs, Int.natAbs_tmod, Int.ofNat_lt]
  exact Nat.mod_lt _ (Int.natAbs_pos.mpr hb)

/-- The remainder of a division by a signed 32-bit word fits one. -/
theorem inS32_trem (a : Int) {b : Int} (hb : b ≠ 0) (hrange : inS32 b = true) : inS32 (trem a b) = true := by
  have hlt := abs_trem_lt a hb
  rw [inS32_iff] at hrange ⊢
  have hsize : |b| ≤ 2147483648 := abs_le.mpr ⟨by omega, by omega⟩
  obtain ⟨hlow, hhigh⟩ := abs_lt.mp (lt_of_lt_of_le hlt hsize)
  omega

/-- The quotient of two signed 32-bit words fits one, but for -2^31 by -1: a divisor of size 1 leaves the dividend or
negates it, and a larger one at least halves its size. -/
theorem inS32_tdiv {a b : Int} (ha : inS32 a = true) (hover : ¬ (a = -2147483648 ∧ b = -1)) :
    inS32 (tdiv a b) = true := by
  rw [inS32_iff] at ha ⊢
  rw [tdiv]
  by_cases hone : b.natAbs ≤ 1
  · obtain rfl | rfl | rfl : b = 0 ∨ b = 1 ∨ b = -1 := by omega
    · simp
    · simpa using ha
    · have hneg : a.tdiv (-1) = -a := by simp
      rw [hneg]
      omega
  · have hhalf : (a.tdiv b).natAbs ≤ a.natAbs / 2 :=
      (Int.natAbs_tdiv a b).trans_le (Nat.div_le_div_left (by omega) (by decide))
    omega

/-- A completed DIV divided by no 0, its quotient fits a register, and it wrote both results. -/
theorem execDiv_next {rs1 rs2 rd : Reg} {s t : State} (h : execDiv rs1 rs2 rd s = .next t) :
    s.reg rs2 ≠ 0 ∧ t.reg rd = tdiv (s.reg rs1) (s.reg rs2) ∧ s32 t.rem = trem (s.reg rs1) (s.reg rs2) := by
  simp only [execDiv] at h
  split at h
  · exact (raise_ne_next _ _ _ _ _ h).elim
  · split at h
    · obtain rfl := Host.Outcome.next.inj h
      exact ⟨‹_›, reg_setReg_self s rd ‹_›, s32_word32 (inS32_trem _ ‹_› (reg_inS32 s rs2))⟩
    · exact (raise_ne_next _ _ _ _ _ h).elim

/-- DIV completes when the divisor is not 0 and the quotient fits a register. -/
theorem execDiv_of_range {rs1 rs2 : Reg} {s : State} (rd : Reg) (hd : s.reg rs2 ≠ 0)
    (hq : inS32 (tdiv (s.reg rs1) (s.reg rs2)) = true) :
    execDiv rs1 rs2 rd s = .next (((s.setReg rd (tdiv (s.reg rs1) (s.reg rs2))).setRem
      (word32 (trem (s.reg rs1) (s.reg rs2)))).complete (s.pc + 4)) := by
  simp only [execDiv, if_neg hd, if_pos hq]
  rfl

/-- Settles O18: outside the two faults the quotient fits a register, and the remainder always does. -/
theorem divWritesQuotientAndRemainder : Obligations.DivWritesQuotientAndRemainder := by
  intro rs1 rs2 rd s hd hover
  have hexec := execDiv_of_range rd hd (inS32_tdiv (reg_inS32 s rs1) hover)
  obtain ⟨-, hquotient, hremainder⟩ := execDiv_next hexec
  exact ⟨_, hexec, hquotient, hremainder, fun _ hr => reg_setReg_ne s _ hr, rfl, rfl, rfl, rfl, rfl, fun _ => rfl⟩

/-- Settles O19: a zero divisor is found first; the quotient of -2^31 by -1 is 2^31, which fits no register. -/
theorem divFaults : Obligations.DivFaults := by
  refine fun rs1 rs2 rd s => ⟨fun hd => ?_, fun ha hd => ?_⟩
  · exact if_pos hd
  · have hover : inS32 (tdiv (-2147483648) (-1)) ≠ true := by decide
    simp only [exec, execDiv, ha, hd]
    rw [if_neg (by decide), if_neg hover]
    rfl

/-- Settles O20: the remainder is the dividend less divisor times quotient, which gives it its size and its sign. -/
theorem divisionLaw : Obligations.DivisionLaw := by
  intro rs1 rs2 rd s t h
  obtain ⟨hd, hquotient, hremainder⟩ := execDiv_next h
  rw [hquotient, hremainder]
  refine ⟨by rw [trem]; omega, abs_trem_lt _ hd, fun ha => ?_, fun ha => ?_⟩ <;> rw [trem_eq_tmod]
  · exact Int.tmod_nonneg _ ha
  · have hneg := Int.tmod_nonneg (s.reg rs2) (neg_nonneg.mpr ha)
    rw [Int.neg_tmod] at hneg
    exact neg_nonneg.mp hneg

/-! ### HLT and ILLEGAL -/

/-- Settles O21: both complete with the graceful halt of one byte's length. -/
theorem hltAndIllegalHalt : Obligations.HltAndIllegalHalt := by
  rintro s i (rfl | ⟨b0, rfl⟩) <;> exact ⟨_, rfl, fun _ => rfl, rfl, rfl, rfl, rfl, rfl, rfl, fun _ => rfl⟩

/-! ### The jumps -/

/-- A completed jump changes nothing but `pc` and `run`. -/
theorem jumpsTo_of_complete {i : Instr} {s : State} {p : Nat} {target : Int} (h : exec i s = .next (s.complete p))
    (hp : (p : Int) = target) : JumpsTo i s target :=
  ⟨_, h, hp, rfl, rfl, ⟨rfl, fun _ => rfl⟩, fun _ => rfl, rfl, rfl⟩

/-- A checked jump to a target in 0..len is taken. -/
theorem jumpsTo_of_checkTarget {i : Instr} {op : Opcode} {ra : Reg} {s : State} {target : Int}
    (h : exec i s = checkTarget op ra target s) (h0 : 0 ≤ target) (hlen : target ≤ s.len) : JumpsTo i s target :=
  jumpsTo_of_complete (h.trans (checkTarget_of_legal h0 hlen)) (Int.toNat_of_nonneg h0)

/-- With no negative distance, JMPF is a checked jump. -/
theorem execJmpf_of_nonneg {ra : Reg} {s : State} (h : 0 ≤ s.reg ra) :
    execJmpf ra s = checkTarget .jmpf ra (s.pc + 2 + s.reg ra) s :=
  if_neg (not_lt.mpr h)

/-- With no negative distance, JMPB is a checked jump. -/
theorem execJmpb_of_nonneg {ra : Reg} {s : State} (h : 0 ≤ s.reg ra) :
    execJmpb ra s = checkTarget .jmpb ra (s.pc + 2 - s.reg ra) s :=
  if_neg (not_lt.mpr h)

/-- Settles O22: past the distance check, each of the three is a checked jump. -/
theorem jumpsReachTheirTargets : Obligations.JumpsReachTheirTargets :=
  fun _ _ => ⟨jumpsTo_of_checkTarget rfl,
    fun hdist => jumpsTo_of_checkTarget (execJmpf_of_nonneg hdist) (by omega),
    fun hdist => jumpsTo_of_checkTarget (execJmpb_of_nonneg hdist)⟩

/-- Settles O23: the distance is checked before the target, and the target's lower bound before the upper one. -/
theorem jumpFaults : Obligations.JumpFaults := by
  refine fun ra s => ⟨fun hneg => ⟨checkTarget_of_below hneg, if_pos hneg, if_pos hneg⟩, checkTarget_of_beyond,
    fun hdist hlen => ?_, fun hback => ?_, fun hdist hlen => ?_⟩
  · exact (execJmpf_of_nonneg hdist).trans (checkTarget_of_beyond hlen)
  · exact (execJmpb_of_nonneg (by omega)).trans (checkTarget_of_below (by omega))
  · exact (execJmpb_of_nonneg hdist).trans (checkTarget_of_beyond hlen)

/-- Settles O24: the flag chooses between a checked jump and the next instruction. -/
theorem jmpeFollowsTheFlag : Obligations.JmpeFollowsTheFlag := by
  intro ra s
  have htaken (hflag : s.flag = true) : exec (.jmpe ra) s = checkTarget .jmpe ra (s.reg ra) s := if_pos hflag
  refine ⟨fun hflag => jumpsTo_of_checkTarget (htaken hflag), fun hflag => ?_, fun hflag hneg => ?_,
    fun hflag hlen => ?_⟩
  · exact jumpsTo_of_complete (p := s.pc + 2) (if_neg (Bool.eq_false_iff.mp hflag)) rfl
  · exact (htaken hflag).trans (checkTarget_of_below hneg)
  · exact (htaken hflag).trans (checkTarget_of_beyond hlen)

/-! ### The comparisons -/

/-- A comparison by a relation that decides `holds` leaves the flag at `holds`. -/
theorem comparisonSetsFlag_of_rel {i : Instr} {op : Opcode} {rel : Int → Int → Bool} {rs1 rs2 : Reg} {s : State}
    {holds : Prop} (hop : op.length = 4) (h : exec i s = compareWith op rel rs1 rs2 s)
    (hrel : rel (s.reg rs1) (s.reg rs2) = true ↔ holds) : ComparisonSetsFlag i s holds :=
  ⟨_, h, hrel, fun _ => rfl, rfl, congrArg (s.pc + ·) hop, rfl, rfl, rfl, fun _ => rfl⟩

/-- Settles O25: each comparison writes what its own relation decides. -/
theorem comparisonsSetTheFlag : Obligations.ComparisonsSetTheFlag :=
  fun _ _ _ _ =>
    ⟨comparisonSetsFlag_of_rel rfl rfl decide_eq_true_iff, comparisonSetsFlag_of_rel rfl rfl decide_eq_true_iff,
    comparisonSetsFlag_of_rel rfl rfl decide_eq_true_iff, comparisonSetsFlag_of_rel rfl rfl decide_eq_true_iff,
    comparisonSetsFlag_of_rel rfl rfl decide_eq_true_iff, comparisonSetsFlag_of_rel rfl rfl decide_eq_true_iff⟩

theorem flag_of_compareWith {op : Opcode} {rel : Int → Int → Bool} {rs1 rs2 : Reg} {s t : State}
    (h : compareWith op rel rs1 rs2 s = .next t) : t.flag = rel (s.reg rs1) (s.reg rs2) := by
  obtain rfl := compareWith_next h
  rfl

theorem relNeq_eq_not (a b : Int) : relNeq a b = !relEq a b := decide_not

theorem relLt_eq_not (a b : Int) : relLt a b = !relGte a b := by
  simp [relLt, relGte, ← decide_not]

theorem relGt_eq_not (a b : Int) : relGt a b = !relLte a b := by
  simp [relGt, relLte, ← decide_not]

/-- Exactly one of LT, EQ and GT holds. -/
theorem rel_trichotomy (a b : Int) : (relLt a b).toNat + (relEq a b).toNat + (relGt a b).toNat = 1 := by
  obtain h | h | h := lt_trichotomy a b
  · simp [relLt, relEq, relGt, h, h.ne, h.le]
  · simp [relLt, relEq, relGt, h]
  · simp [relLt, relEq, relGt, h, h.ne', h.le]

/-- Settles O26: the flags are the relations' results, and the relations are those of one linear order. -/
theorem comparisonsAgreeWithEachOther : Obligations.ComparisonsAgreeWithEachOther := by
  intro rs1 rs2 pad s tEq tNeq tGte tLte tLt tGt tGteSwap tGtSwap hEq hNeq hGte hLte hLt hGt hGteSwap hGtSwap
  rw [flag_of_compareWith hEq, flag_of_compareWith hNeq, flag_of_compareWith hGte, flag_of_compareWith hLte,
    flag_of_compareWith hLt, flag_of_compareWith hGt, flag_of_compareWith hGteSwap, flag_of_compareWith hGtSwap]
  refine ⟨relNeq_eq_not _ _, relLt_eq_not _ _, relGt_eq_not _ _, rfl, rfl, rel_trichotomy _ _, ?_⟩
  rintro rfl
  simp [relEq, relNeq, relGte, relLte, relLt, relGt]

end Sys2Proof.Proofs
end

section
/-! PROOF. The step from the bytes at `pc`: its checks in their order (60_exceptions.md R185), the two faults of the
decoder, and the rules of LOAD, ADD, SUB, MUL, the comparisons, JMP and ILLEGAL from their encodings. The bytes of an
instruction are recognised as its encoding, so that the decoder's inversion says what is fetched. -/

open Sys2Proof Sys2Proof.Machine Sys2Proof.Claims

namespace Sys2Proof.Proofs

/-! ### The checks of a step -/

/-- A core that is ready is not blocked. -/
theorem blocked_eq_false_of_ready {s : State} (h : Ready s) : s.blocked = false :=
  Bool.eq_false_iff.mpr (mt (blocked_iff s).mp h.1)

/-- A ready core fetches the instruction the decoder reads. -/
theorem fetch_of_decode {s : State} {i : Instr} (hs : Ready s) (h : decode (s.window maxLength s.pc) = .ok i) :
    fetch s = .instr i :=
  fetch_eq_instr.mpr ⟨blocked_eq_false_of_ready hs, hs.2, h⟩

theorem stepCommand_of_instr {s : State} {i : Instr} (h : fetch s = .instr i) : stepCommand s = execCommand i s := by
  simp only [stepCommand, h]

/-- Settles O32: past the first checks, the step is what the decoder read. -/
theorem stepRunsTheDecodedInstruction : Obligations.StepRunsTheDecodedInstruction :=
  fun _ _ hs h => ⟨step_of_instr (fetch_of_decode hs h), stepCommand_of_instr (fetch_of_decode hs h)⟩

theorem fetch_of_blocked {s : State} (h : s.blocked = true) : fetch s = .notResumed := by
  simp only [fetch, h, if_true]

theorem fetch_of_end {s : State} (hb : s.blocked = false) (h : s.len ≤ s.pc) : fetch s = .endOfProgram := by
  simp [fetch, hb, h]

/-- LENGTH_CHECK: fewer bytes than the opcode takes raise TruncatedInstruction. -/
theorem fetch_of_short {s : State} (hs : Ready s) (h : s.len < s.pc + (decodeOpcode hwConfig (byte s 0)).length) :
    fetch s = .fault (.truncatedInstruction ⟨byte s 0, s.pc, none⟩) := by
  have hwindow : s.window maxLength s.pc = byte s 0 :: s.window 3 (s.pc + 1) := window_cons _ _ _ hs.2
  have hshort : (s.window 3 (s.pc + 1)).length + 1 < (decodeOpcode hwConfig (byte s 0)).length := by
    have := hs.2
    rw [length_window]
    omega
  rw [fetch_eq_of_ready hs, hwindow, decode, decodeWith, decodeOperands_of_short hshort]
  rfl

/-- A step whose fetch faults is that fault. -/
theorem step_of_fault {s : State} {f : Fault} (h : fetch s = .fault f) : step s = .fault f := by
  simp only [step, h]

theorem step_of_notResumed {s : State} (h : fetch s = .notResumed) :
    step s = .next s ∧ stepCommand s = (.halted .notResumed, s) := by
  simp only [step, stepCommand, h, and_self]

theorem step_of_endOfProgram {s : State} (h : fetch s = .endOfProgram) :
    step s = .next s.halt ∧ stepCommand s = (.halted .endOfProgram, s.halt) := by
  simp only [step, stepCommand, h, and_self]

/-- Settles O33: each check is made on the states that passed the ones before it. -/
theorem stepChecksInOrder : Obligations.StepChecksInOrder := by
  refine fun s => ⟨fun hrun harmed => ?_, fun hb hend => ?_, fun hs hshort => step_of_fault (fetch_of_short hs hshort)⟩
  · exact step_of_notResumed (fetch_of_blocked ((blocked_iff s).mpr ⟨hrun, harmed⟩))
  · have hb : s.blocked = false := Bool.eq_false_iff.mpr (mt (blocked_iff s).mp hb)
    obtain ⟨hstep, hcommand⟩ := step_of_endOfProgram (fetch_of_end hb hend)
    exact ⟨_, hstep, hcommand, fun _ => rfl, rfl, rfl, rfl, rfl, rfl, rfl, fun _ => rfl⟩

/-! ### The decoder's faults -/

/-- Every opcode truncates by its format's length and rejects the registers at its format's positions. -/
theorem decodeFaults_of_format {op : Opcode} {fmt : Format} (hfmt : op.format = fmt) :
    Truncates (encodeOpcode hwConfig op) fmt.length ∧
      RejectsRegisters (encodeOpcode hwConfig op) fmt.length fmt.regPositions := by
  subst hfmt
  have hop (s : State) (h0 : byte s 0 = encodeOpcode hwConfig op) : decodeOpcode hwConfig (byte s 0) = op := by
    rw [h0, decodeOpcode_encodeOpcode hwConfig_lawful]
  refine ⟨fun s hs h0 hshort => ?_, fun s hs h0 hlen k hk hbad hgood => ?_⟩
  · rw [← h0]
    exact step_of_fault (fetch_of_short hs (by rwa [hop s h0]))
  · obtain ⟨t, hfetch⟩ := fetch_of_whole hs (hop s h0) hlen
    rw [decodeOperands_of_firstBad _ t ⟨hk, hbad, hgood⟩, h0] at hfetch
    exact step_of_fault hfetch

/-! ### The bytes of an encoding -/

/-- A ready core at a whole instruction whose bytes are those of a real instruction fetches it. -/
theorem fetch_of_bytes {s : State} {i : Instr} (hs : Ready s) (hlen : s.pc + i.length ≤ s.len)
    (hi : i.opcode ≠ .illegal) (h0 : byte s 0 = encodeOpcode hwConfig i.opcode)
    (hoperands : operandBytes (byte s) i.opcode = encodeOperands hwConfig i) : fetch s = .instr i := by
  obtain ⟨t, ht⟩ := window_eq_operandBytes hlen hs.2
  refine fetch_of_decode hs ?_
  rw [ht, h0, hoperands]
  exact (decodeOfEncodeIsTheInstruction hwConfig t hwConfig_lawful).1 i hi

/-- A byte with a register's value is the register's byte. -/
theorem eq_regByte {b : Byte} {r : Reg} (h : b.toNat = r.val) : b = regByte r :=
  BitVec.eq_of_toNat_eq (h.trans (regByte_toNat r).symm)

theorem operandBytes_of_length_four {op : Opcode} (h : op.length = 4) (f : Nat → Byte) :
    operandBytes f op = [f 1, f 2, f 3] := by
  rw [operandBytes, h]
  rfl

/-- Settles O27: bytes `00 rd hi lo` are those of LOAD with the immediate `hi ++ lo`. -/
theorem loadRule : Obligations.LoadRule := by
  obtain ⟨htruncates, hrejects⟩ := decodeFaults_of_format (op := .load) rfl
  refine ⟨htruncates, hrejects, fun s rd hs hlen h0 h1 => ?_⟩
  have hfetch : fetch s = .instr (.load rd (immOfBytes (byte s 2) (byte s 3))) := by
    refine fetch_of_bytes hs hlen nofun h0 ?_
    rw [operandBytes_of_length_four rfl, eq_regByte h1, encodeOperands, immHi_immOfBytes, immLo_immOfBytes]
  obtain ⟨t, hexec, hreg, hframe⟩ := loadWritesTheImmediate rd (immOfBytes (byte s 2) (byte s 3)) s
  rw [immOfBytes_toNat] at hreg
  exact ⟨t, (step_of_instr hfetch).trans hexec, by omega, hframe⟩

/-- A real instruction of four bytes is fetched from its opcode's byte and its three operand bytes. -/
theorem fetch_of_four_bytes {s : State} {i : Instr} {op : Opcode} (hs : Ready s) (hop : i.opcode = op)
    (hlength : op.length = 4) (hlen : s.pc + 4 ≤ s.len) (h0 : byte s 0 = encodeOpcode hwConfig op)
    (hoperands : encodeOperands hwConfig i = [byte s 1, byte s 2, byte s 3]) : fetch s = .instr i := by
  subst hop
  refine fetch_of_bytes hs (by rwa [Instr.length, hlength]) (fun hillegal => ?_) h0 ?_
  · rw [hillegal] at hlength
    exact absurd hlength (by decide)
  · rw [operandBytes_of_length_four hlength, hoperands]

/-- The rule of an opcode of format FRRR whose instruction writes a checked result of its two sources. -/
theorem arithmeticRule_of_writeChecked {op : Opcode} {mk : Reg → Reg → Reg → Instr} {f : Int → Int → Int}
    (hfmt : op.format = .frrr)
    (hmk : ∀ rs1 rs2 rd, (mk rs1 rs2 rd).opcode = op ∧
      encodeOperands hwConfig (mk rs1 rs2 rd) = [regByte rs1, regByte rs2, regByte rd] ∧
      ∀ s, exec (mk rs1 rs2 rd) s = writeChecked op rd (f (s.reg rs1) (s.reg rs2)) s) :
    ArithmeticRule (encodeOpcode hwConfig op) mk f := by
  have hlength : op.length = 4 := congrArg Format.length hfmt
  obtain ⟨htruncates, hrejects⟩ := decodeFaults_of_format hfmt
  refine ⟨htruncates, hrejects, fun s rs1 rs2 rd hs hlen h0 h1 h2 h3 => ?_⟩
  obtain ⟨hop, hoperands, hexec⟩ := hmk rs1 rs2 rd
  rw [← eq_regByte h1, ← eq_regByte h2, ← eq_regByte h3] at hoperands
  rw [step_of_instr (fetch_of_four_bytes hs hop hlength hlen h0 hoperands), hexec]
  refine ⟨fun hv => ?_, writeChecked_overflows⟩
  obtain ⟨t, ht, hframe⟩ := writeChecked_completes hlength hv
  exact ⟨t, ht, ht, hframe⟩

/-- Settles O28: the three share their format and the check of their result. -/
theorem addSubMulRules : Obligations.AddSubMulRules :=
  ⟨arithmeticRule_of_writeChecked (op := .add) rfl fun _ _ _ => ⟨rfl, rfl, fun _ => rfl⟩,
    arithmeticRule_of_writeChecked (op := .sub) rfl fun _ _ _ => ⟨rfl, rfl, fun _ => rfl⟩,
    arithmeticRule_of_writeChecked (op := .mul) rfl fun _ _ _ => ⟨rfl, rfl, fun _ => rfl⟩⟩

/-- The rule of an opcode of format FRRX whose instruction writes a relation of its two sources to the flag. -/
theorem comparisonRule_of_compareWith {op : Opcode} {mk : Reg → Reg → Byte → Instr} {rel : Int → Int → Bool}
    {holds : Int → Int → Prop} (hfmt : op.format = .frrx)
    (hmk : ∀ rs1 rs2 pad, (mk rs1 rs2 pad).opcode = op ∧
      encodeOperands hwConfig (mk rs1 rs2 pad) = [regByte rs1, regByte rs2, pad] ∧
      ∀ s, exec (mk rs1 rs2 pad) s = compareWith op rel rs1 rs2 s)
    (hrel : ∀ a b, rel a b = true ↔ holds a b) : ComparisonRule (encodeOpcode hwConfig op) mk holds := by
  have hlength : op.length = 4 := congrArg Format.length hfmt
  obtain ⟨htruncates, hrejects⟩ := decodeFaults_of_format hfmt
  refine ⟨htruncates, hrejects, fun s rs1 rs2 hs hlen h0 h1 h2 => ?_⟩
  obtain ⟨hop, hoperands, hexec⟩ := hmk rs1 rs2 (byte s 3)
  rw [← eq_regByte h1, ← eq_regByte h2] at hoperands
  have hfetch := fetch_of_four_bytes hs hop hlength hlen h0 hoperands
  obtain ⟨t, ht, hframe⟩ := comparisonSetsFlag_of_rel hlength (hexec s) (hrel _ _)
  exact ⟨t, (step_of_instr hfetch).trans ht, ht, hframe⟩

/-- Settles O29: the six share their format, and each writes what its relation decides. -/
theorem comparisonRules : Obligations.ComparisonRules := by
  refine ⟨comparisonRule_of_compareWith (op := .eq) (rel := relEq) rfl ?_ ?_,
    comparisonRule_of_compareWith (op := .neq) (rel := relNeq) rfl ?_ ?_,
    comparisonRule_of_compareWith (op := .gte) (rel := relGte) rfl ?_ ?_,
    comparisonRule_of_compareWith (op := .lte) (rel := relLte) rfl ?_ ?_,
    comparisonRule_of_compareWith (op := .lt) (rel := relLt) rfl ?_ ?_,
    comparisonRule_of_compareWith (op := .gt) (rel := relGt) rfl ?_ ?_⟩
  case refine_1 | refine_3 | refine_5 | refine_7 | refine_9 | refine_11 =>
    exact fun _ _ _ => ⟨rfl, rfl, fun _ => rfl⟩
  all_goals exact fun _ _ => decide_eq_true_iff

/-- Settles O30: bytes `06 ra` are those of JMP, a checked jump to x[ra]. -/
theorem jmpRule : Obligations.JmpRule := by
  obtain ⟨htruncates, hrejects⟩ := decodeFaults_of_format (op := .jmp) rfl
  refine ⟨htruncates, hrejects, fun s ra hs hlen h0 h1 => ?_⟩
  have hra := eq_regByte h1
  have hfetch : fetch s = .instr (.jmp ra) := fetch_of_bytes hs hlen nofun h0 (congrArg ([·]) hra)
  rw [step_of_instr hfetch, hra]
  obtain ⟨hneg, hbeyond, -⟩ := jumpFaults ra s
  exact ⟨(jumpsReachTheirTargets ra s).1, fun h => (hneg h).1, hbeyond⟩

/-- A ready core fetches ILLEGAL at a byte outside 0..15 (R64). -/
theorem fetch_of_illegal {s : State} (hs : Ready s) (h : 16 ≤ (byte s 0).toNat) :
    fetch s = .instr (.illegal (byte s 0)) := by
  obtain ⟨t, hfetch⟩ := fetch_of_whole hs (decodeOpcode_of_ge hwConfig (Nat.not_lt.mpr h)) hs.2
  exact hfetch

/-- Settles O31: every byte outside 0..15 is ILLEGAL, which halts and reports its byte. -/
theorem illegalRule : Obligations.IllegalRule := by
  intro s hs h
  have hfetch := fetch_of_illegal hs h
  obtain ⟨t, hexec, hframe⟩ := hltAndIllegalHalt s (.illegal (byte s 0)) (.inr ⟨_, rfl⟩)
  refine ⟨t, (step_of_instr hfetch).trans hexec, ?_, hframe⟩
  rw [stepCommand_of_instr hfetch, execCommand, hexec]
  rfl

end Sys2Proof.Proofs
end

section
/-! PROOF. How a step ends: the host's report is one of four, no step is refused, the outcome agrees with the state
(40_cycle.md R102, R104), and the records of its faults name bytes of the instruction (60_exceptions.md R182). -/

open Sys2Proof Sys2Proof.Machine Sys2Proof.Claims

namespace Sys2Proof.Proofs

/-! ### What an instruction can answer -/

/-- A fault that instruction `i` may raise: its record names the opcode's byte, an operand named is one of the bytes `i`
encodes to, and it is no fault of LENGTH_CHECK. -/
def FaultOf (i : Instr) (f : Fault) : Prop :=
  f.record.opcode = encodeOpcode hwConfig i.opcode ∧
    (∀ k b, f.record.operand = some (k, b) → 0 < k ∧ (encode i)[k]? = some b) ∧
    ∀ r, f ≠ .truncatedInstruction r

/-- An answer that instruction `i` may give: a next state, or a fault of its own. -/
def MayAnswer (i : Instr) : Result → Prop
  | .next _ => True
  | .fault f => FaultOf i f
  | .refused _ => False

section Answers

variable {i : Instr} {s : State}

theorem mayAnswer_ite {c : Prop} [Decidable c] {a b : Result} (ha : MayAnswer i a) (hb : MayAnswer i b) :
    MayAnswer i (if c then a else b) := by
  split
  · exact ha
  · exact hb

/-- Raising a fault that names byte `k` of the instruction. -/
theorem mayAnswer_raise {kind : FaultRecord → Fault} (hkind : ∀ r, (kind r).record = r)
    (hlength : ∀ r r', kind r ≠ .truncatedInstruction r') {k : Nat} {b : Byte} (h0 : 0 < k)
    (hb : (encode i)[k]? = some b) : MayAnswer i (raise kind i.opcode (some (k, b)) s) := by
  refine ⟨by rw [hkind], fun k' b' h => ?_, hlength _⟩
  rw [hkind] at h
  obtain ⟨rfl, rfl⟩ := Prod.mk.inj (Option.some.inj h)
  exact ⟨h0, hb⟩

/-- ADD, SUB and MUL name no operand. -/
theorem mayAnswer_writeChecked {rd : Reg} {v : Int} : MayAnswer i (writeChecked i.opcode rd v s) :=
  mayAnswer_ite trivial ⟨rfl, nofun, nofun⟩

/-- A jump names its register byte. -/
theorem mayAnswer_checkTarget {ra : Reg} {v : Int} (hra : (encode i)[1]? = some (regByte ra)) :
    MayAnswer i (checkTarget i.opcode ra v s) :=
  mayAnswer_ite (mayAnswer_raise (fun _ => rfl) (by nofun) Nat.one_pos hra)
    (mayAnswer_ite (mayAnswer_raise (fun _ => rfl) (by nofun) Nat.one_pos hra) trivial)

/-- DIV names its divisor's byte. -/
theorem mayAnswer_execDiv (rs1 rs2 rd : Reg) : MayAnswer (.div rs1 rs2 rd) (execDiv rs1 rs2 rd s) :=
  mayAnswer_ite (mayAnswer_raise (i := .div rs1 rs2 rd) (fun _ => rfl) (by nofun) (k := 2) (by decide) rfl)
    (mayAnswer_ite trivial (mayAnswer_raise (i := .div rs1 rs2 rd) (fun _ => rfl) (by nofun) (k := 2) (by decide) rfl))

/-- JMPF and JMPB name their register byte for a negative distance too. -/
theorem mayAnswer_relativeJump {ra : Reg} {c : Prop} [Decidable c] {v : Int}
    (hra : (encode i)[1]? = some (regByte ra)) :
    MayAnswer i (if c then raise .negativeJumpDistance i.opcode (some (1, regByte ra)) s
      else checkTarget i.opcode ra v s) :=
  mayAnswer_ite (mayAnswer_raise (fun _ => rfl) (by nofun) Nat.one_pos hra) (mayAnswer_checkTarget hra)

end Answers

/-- Every instruction answers a next state or a fault of its own. -/
theorem mayAnswer_exec (i : Instr) (s : State) : MayAnswer i (exec i s) := by
  cases i with
  | load | hlt | illegal | eq | neq | gte | lte | lt | gt => exact trivial
  | add rs1 rs2 rd => exact mayAnswer_writeChecked (i := .add rs1 rs2 rd)
  | sub rs1 rs2 rd => exact mayAnswer_writeChecked (i := .sub rs1 rs2 rd)
  | mul rs1 rs2 rd => exact mayAnswer_writeChecked (i := .mul rs1 rs2 rd)
  | div => exact mayAnswer_execDiv _ _ _
  | jmp ra => exact mayAnswer_checkTarget (i := .jmp ra) rfl
  | jmpf ra => exact mayAnswer_relativeJump (i := .jmpf ra) rfl
  | jmpb ra => exact mayAnswer_relativeJump (i := .jmpb ra) rfl
  | jmpe ra => exact mayAnswer_ite (mayAnswer_checkTarget (i := .jmpe ra) rfl) trivial

theorem exec_ne_refused (i : Instr) (s : State) (r : Refusal) : exec i s ≠ .refused r := by
  intro h
  have := mayAnswer_exec i s
  rwa [h] at this

theorem faultOf_of_exec {i : Instr} {s : State} {f : Fault} (h : exec i s = .fault f) : FaultOf i f := by
  have := mayAnswer_exec i s
  rwa [h] at this

/-- Settles O34: the first checks refuse nothing, and no instruction does. -/
theorem noStepIsRefused : Obligations.NoStepIsRefused := by
  intro s r
  unfold step
  split
  · nofun
  · nofun
  · nofun
  · exact exec_ne_refused _ s r

/-! ### What the host is told -/

theorem fetchedOf_ne_notResumed (pc : Nat) (d : Except DecodeError Instr) : fetchedOf pc d ≠ .notResumed := by
  unfold fetchedOf
  split <;> nofun

/-- Only RESUME_CHECK answers that the core was not resumed. -/
theorem blocked_of_fetch {s : State} (h : fetch s = .notResumed) : s.blocked = true := by
  unfold fetch at h
  split at h
  · assumption
  · split at h
    · exact absurd h nofun
    · exact absurd h (fetchedOf_ne_notResumed _ _)

/-- An instruction is reported as completed or as a fault, which leaves the state. -/
theorem execCommand_cases {i : Instr} {s t : State} {o : StepOutcome} (h : execCommand i s = (o, t)) :
    (∃ f, o = .fault f ∧ t = s) ∨ (exec i s = .next t ∧ o = completedOutcome i) := by
  unfold execCommand at h
  split at h
  next u hexec =>
    obtain ⟨rfl, rfl⟩ := Prod.mk.inj h
    exact .inr ⟨hexec, rfl⟩
  next f _ =>
    obtain ⟨rfl, rfl⟩ := Prod.mk.inj h
    exact .inl ⟨f, rfl, rfl⟩
  next hexec => exact (exec_ne_refused _ _ _ hexec).elim

/-- The report of a step is one of four: the core was blocked, the program had ended, a fault, or an instruction that
completed. -/
theorem stepCommand_cases {s t : State} {o : StepOutcome} (h : stepCommand s = (o, t)) :
    (s.blocked = true ∧ o = .halted .notResumed ∧ t = s) ∨ (o = .halted .endOfProgram ∧ t = s.halt) ∨
      (∃ f, o = .fault f ∧ t = s) ∨ ∃ i, fetch s = .instr i ∧ exec i s = .next t ∧ o = completedOutcome i := by
  cases hfetch : fetch s with
  | notResumed =>
    obtain ⟨rfl, rfl⟩ := Prod.mk.inj ((step_of_notResumed hfetch).2.symm.trans h)
    exact .inl ⟨blocked_of_fetch hfetch, rfl, rfl⟩
  | endOfProgram =>
    obtain ⟨rfl, rfl⟩ := Prod.mk.inj ((step_of_endOfProgram hfetch).2.symm.trans h)
    exact .inr (.inl ⟨rfl, rfl⟩)
  | fault f =>
    simp only [stepCommand, hfetch, Prod.mk.injEq] at h
    exact .inr (.inr (.inl ⟨f, h.1.symm, h.2.symm⟩))
  | instr i =>
    rw [stepCommand_of_instr hfetch] at h
    exact .inr (.inr ((execCommand_cases h).imp_right fun hdone => ⟨i, rfl, hdone⟩))

theorem haltReason_of_running {i : Instr} (h : completedOutcome i = .running) : haltReason i = none := by
  unfold completedOutcome at h
  split at h
  · exact absurd h nofun
  · assumption

/-- A step reported as Running executed an instruction that does not halt. -/
theorem run_of_running {s t : State} (h : stepCommand s = (.running, t)) : t.run = .running := by
  obtain ⟨-, ho, -⟩ | ⟨ho, -⟩ | ⟨f, ho, -⟩ | ⟨i, -, hexec, ho⟩ := stepCommand_cases h
  · exact absurd ho nofun
  · exact absurd ho nofun
  · exact absurd ho nofun
  · exact ((exec_next hexec).2.2.1 (haltReason_of_running ho.symm)).1

/-- A step reported as Halted leaves the core Halted and unarmed, whatever the reason. -/
theorem halted_of_halted {s t : State} {r : HaltReason} (h : stepCommand s = (.halted r, t)) :
    t.run = .halted ∧ t.armed = false := by
  obtain ⟨hblocked, -, rfl⟩ | ⟨-, rfl⟩ | ⟨f, ho, -⟩ | ⟨i, -, hexec, ho⟩ := stepCommand_cases h
  · exact (blocked_iff t).mp hblocked
  · exact ⟨rfl, rfl⟩
  · exact absurd ho nofun
  · obtain ⟨-, -, -, hhalted⟩ := exec_next hexec
    exact hhalted (by rw [haltReason_of_completedOutcome ho.symm]; nofun)

/-- Settles O35: the report is read back as the step's answer, and each outcome leaves `run` as it says. -/
theorem outcomeAgreesWithState : Obligations.OutcomeAgreesWithState := by
  rintro s t o h
  refine ⟨?_, ?_, ?_⟩
  · rintro rfl
    refine ⟨?_, run_of_running h⟩
    rw [← answerOf_stepCommand, h, answerOf]
  · rintro r rfl
    exact ⟨step_of_stepCommand_halted h, halted_of_halted h⟩
  · rintro f rfl
    exact step_of_stepCommand_fault h

/-! ### The bytes a fault names -/

/-- Either every register byte is good, or one of them is the first bad one. -/
theorem good_or_firstBad (f : Nat → Byte) (positions : List Nat) :
    (∀ k ∈ positions, (f k).toNat ≤ 31) ∨ ∃ k, FirstBad f positions k := by
  by_cases h : ∃ k, k ∈ positions ∧ 31 < (f k).toNat
  · obtain ⟨hk, hbad⟩ := Nat.find_spec h
    exact .inr ⟨Nat.find h, hk, hbad, fun j hj hlt => Nat.not_lt.mp fun hb => Nat.find_min h hlt ⟨hj, hb⟩⟩
  · exact .inl fun k hk => Nat.not_lt.mp fun hb => h ⟨k, hk, hb⟩

/-- What a ready core's fetch answers: too few bytes, a bad register byte of the instruction, or an instruction. -/
theorem fetch_cases_of_ready {s : State} (hs : Ready s) :
    (s.len < s.pc + (decodeOpcode hwConfig (byte s 0)).length ∧
        fetch s = .fault (.truncatedInstruction ⟨byte s 0, s.pc, none⟩)) ∨
      (∃ k, 0 < k ∧ s.pc + k < s.len ∧
        fetch s = .fault (.registerIndexOutOfRange ⟨byte s 0, s.pc, some (k, byte s k)⟩)) ∨
      ∃ i, fetch s = .instr i := by
  by_cases hlen : s.pc + (decodeOpcode hwConfig (byte s 0)).length ≤ s.len
  · obtain ⟨t, hfetch⟩ := fetch_of_whole hs rfl hlen
    obtain hgood | ⟨k, hbad⟩ := good_or_firstBad (byte s) (decodeOpcode hwConfig (byte s 0)).format.regPositions
    · obtain ⟨i, hdecode, -⟩ := decodeOperands_of_registers (c := hwConfig) (byte s 0) t hgood
      rw [hdecode] at hfetch
      exact .inr (.inr ⟨i, hfetch⟩)
    · obtain ⟨hpos, hk⟩ := regPositions_within hbad.1
      rw [decodeOperands_of_firstBad _ t hbad] at hfetch
      exact .inr (.inl ⟨k, hpos, by omega, hfetch⟩)
  · exact .inl ⟨Nat.not_le.mp hlen, fetch_of_short hs (Nat.not_le.mp hlen)⟩

/-- A core whose fetch faults was ready: the checks before LENGTH_CHECK raise none. -/
theorem ready_of_fetch_fault {s : State} {f : Fault} (h : fetch s = .fault f) : Ready s := by
  refine ⟨fun hblocked => ?_, Nat.not_le.mp fun hend => ?_⟩
  · rw [fetch_of_blocked ((blocked_iff s).mpr hblocked)] at h
    exact absurd h nofun
  · cases hb : s.blocked with
    | true => exact absurd ((fetch_of_blocked hb).symm.trans h) nofun
    | false => exact absurd ((fetch_of_end hb hend).symm.trans h) nofun

/-- ILLEGAL raises no fault. -/
theorem real_of_exec_fault {i : Instr} {s : State} {f : Fault} (h : exec i s = .fault f) : i.opcode ≠ .illegal := by
  cases i with
  | illegal => exact absurd h nofun
  | load | add | sub | mul | div | hlt | jmp | jmpf | jmpb | eq | neq | gte | lte | lt | gt | jmpe => nofun

/-- A byte of a fetched real instruction's encoding is the byte of the buffer it was read from. -/
theorem byte_of_encode {s : State} {i : Instr} (hfetch : fetch s = .instr i) (hi : i.opcode ≠ .illegal) {k : Nat}
    {b : Byte} (h : (encode i)[k]? = some b) : b = byte s k ∧ s.pc + k < s.len := by
  obtain ⟨-, -, hdecode⟩ := fetch_eq_instr.mp hfetch
  rw [encode, encodeWith_of_decodeWith hwConfig_lawful hdecode hi, List.getElem?_take] at h
  split at h
  · refine ⟨eq_byte_of_window h, ?_⟩
    rw [getElem?_window] at h
    split at h
    next hk => exact hk.2
    next => exact absurd h nofun
  · exact absurd h nofun

/-- Settles O37: VALIDATE names a byte it read, and an instruction's record names bytes of its encoding, which are those
it was decoded from. -/
theorem faultRecordsNameTheBytes : Obligations.FaultRecordsNameTheBytes := by
  intro s f h
  obtain hfetch | ⟨i, hfetch, hexec⟩ := step_fault_cases h
  · obtain ⟨-, htrunc⟩ | ⟨k, hpos, hk, hbad⟩ | ⟨i, hinstr⟩ := fetch_cases_of_ready (ready_of_fetch_fault hfetch)
    · obtain rfl := Fetched.fault.inj (htrunc.symm.trans hfetch)
      exact ⟨rfl, nofun⟩
    · obtain rfl := Fetched.fault.inj (hbad.symm.trans hfetch)
      refine ⟨rfl, fun k' b hoperand => ?_⟩
      obtain ⟨rfl, rfl⟩ := Prod.mk.inj (Option.some.inj hoperand)
      exact ⟨rfl, hpos, hk⟩
    · exact absurd (hinstr.symm.trans hfetch) nofun
  · obtain ⟨hopcode, hoperand, -⟩ := faultOf_of_exec hexec
    have hi := real_of_exec_fault hexec
    refine ⟨hopcode.trans (byte_of_encode hfetch hi (k := 0) rfl).1, fun k b hkb => ?_⟩
    obtain ⟨hpos, hb⟩ := hoperand k b hkb
    obtain ⟨rfl, hk⟩ := byte_of_encode hfetch hi hb
    exact ⟨rfl, hpos, hk⟩

end Sys2Proof.Proofs
end

section
/-! PROOF. What a step may change: the equal flag only by a comparison and `rem` only by DIV (10_state.md R27, R28), the
buffer never (R31), and `pc` forward unless a jump was executed (40_cycle.md, C4). -/

open Sys2Proof Sys2Proof.Machine Sys2Proof.Claims

namespace Sys2Proof.Proofs

/-! ### A field that no operation reads

An update `g` of the state that no operation reads or overwrites commutes with every operation, and so with an
instruction made of them. With `g` writing what the field holds already, this says that the instruction leaves
the field. -/

/-- The update is seen by no register read, offset or length, and outlives every other update. -/
structure Unread (g : State → State) : Prop where
  reg : ∀ s r, (g s).reg r = s.reg r
  pc : ∀ s, (g s).pc = s.pc
  len : ∀ s, (g s).len = s.len
  setReg : ∀ s r v, (g s).setReg r v = g (s.setReg r v)
  complete : ∀ s p, (g s).complete p = g (s.complete p)
  completeHalted : ∀ s p, (g s).completeHalted p = g (s.completeHalted p)

theorem unread_setFlag (b : Bool) : Unread (·.setFlag b) :=
  ⟨fun _ _ => rfl, fun _ => rfl, fun _ => rfl, fun _ _ _ => rfl, fun _ _ => rfl, fun _ _ => rfl⟩

theorem unread_setRem (w : Word) : Unread (·.setRem w) :=
  ⟨fun _ _ => rfl, fun _ => rfl, fun _ => rfl, fun _ _ _ => rfl, fun _ _ => rfl, fun _ _ => rfl⟩

/-- The answer with its next state updated. -/
def onNext (g : State → State) : Result → Result
  | .next t => .next (g t)
  | .fault f => .fault f
  | .refused r => .refused r

theorem onNext_ite (g : State → State) (c : Prop) [Decidable c] (a b : Result) :
    onNext g (if c then a else b) = if c then onNext g a else onNext g b :=
  apply_ite (onNext g) c a b

section Unread

variable {g : State → State} (hg : Unread g)
include hg

theorem nextPc_unread (s : State) (op : Opcode) : (g s).nextPc op = s.nextPc op :=
  congrArg (· + op.length) (hg.pc s)

theorem raise_unread (k : FaultRecord → Fault) (op : Opcode) (o : Option (Nat × Byte)) (s : State) :
    raise k op o (g s) = onNext g (raise k op o s) := by
  simp only [raise, hg.pc, onNext]

theorem writeChecked_unread (op : Opcode) (rd : Reg) (v : Int) (s : State) :
    writeChecked op rd v (g s) = onNext g (writeChecked op rd v s) := by
  simp only [writeChecked, nextPc_unread hg, hg.setReg, hg.complete, raise_unread hg, onNext_ite]
  rfl

theorem checkTarget_unread (op : Opcode) (ra : Reg) (v : Int) (s : State) :
    checkTarget op ra v (g s) = onNext g (checkTarget op ra v s) := by
  simp only [checkTarget, hg.len, hg.complete, raise_unread hg, onNext_ite]
  rfl

theorem execDiv_unread (hrem : ∀ s w, (g s).setRem w = g (s.setRem w)) (rs1 rs2 rd : Reg) (s : State) :
    execDiv rs1 rs2 rd (g s) = onNext g (execDiv rs1 rs2 rd s) := by
  simp only [execDiv, nextPc_unread hg, hg.reg, hg.setReg, hrem, hg.complete, raise_unread hg, onNext_ite]
  rfl

theorem compareWith_unread (hflag : ∀ s b, (g s).setFlag b = g (s.setFlag b)) (op : Opcode) (rel : Int → Int → Bool)
    (rs1 rs2 : Reg) (s : State) : compareWith op rel rs1 rs2 (g s) = onNext g (compareWith op rel rs1 rs2 s) := by
  simp only [compareWith, nextPc_unread hg, hg.reg, hflag, hg.complete]
  rfl

/-- The instruction is a DIV. -/
def IsDiv (i : Instr) : Prop := ∃ rs1 rs2 rd, i = .div rs1 rs2 rd

/-- An instruction commutes with the update, if DIV does not overwrite the field, a comparison does not, and JMPE does
not read it. -/
theorem exec_unread {i : Instr} {s : State}
    (hdiv : IsDiv i → ∀ s w, (g s).setRem w = g (s.setRem w))
    (hcompare : IsComparison i → ∀ s b, (g s).setFlag b = g (s.setFlag b))
    (hjmpe : (∃ ra, i = .jmpe ra) → (g s).flag = s.flag) : exec i (g s) = onNext g (exec i s) := by
  cases i with
  | load =>
    simp only [exec, execLoad, nextPc_unread hg, hg.setReg, hg.complete]
    rfl
  | add | sub | mul => simp only [exec, execAdd, execSub, execMul, hg.reg, writeChecked_unread hg]
  | div rs1 rs2 rd => exact execDiv_unread hg (hdiv ⟨rs1, rs2, rd, rfl⟩) rs1 rs2 rd s
  | hlt | illegal =>
    simp only [exec, execHlt, execIllegal, nextPc_unread hg, hg.completeHalted]
    rfl
  | jmp => simp only [exec, execJmp, absoluteTarget, hg.reg, checkTarget_unread hg]
  | jmpf =>
    simp only [exec, execJmpf, forwardTarget, nextPc_unread hg, hg.reg, raise_unread hg,
      checkTarget_unread hg, onNext_ite]
  | jmpb =>
    simp only [exec, execJmpb, backwardTarget, nextPc_unread hg, hg.reg, raise_unread hg,
      checkTarget_unread hg, onNext_ite]
  | jmpe ra =>
    simp only [exec, execJmpe, absoluteTarget, hjmpe ⟨ra, rfl⟩, nextPc_unread hg, hg.reg, hg.complete,
      checkTarget_unread hg, onNext_ite]
    rfl
  | eq rs1 rs2 pad | neq rs1 rs2 pad | gte rs1 rs2 pad | lte rs1 rs2 pad | lt rs1 rs2 pad | gt rs1 rs2 pad =>
    exact compareWith_unread hg (hcompare ⟨rs1, rs2, pad, by simp⟩) _ _ _ _ _

end Unread

/-- If an answer is itself with its next state updated, the update changes nothing there. -/
theorem eq_update_of_onNext {g : State → State} {a : Result} {t : State} (h : a = onNext g a) (ht : a = .next t) :
    t = g t := by
  subst ht
  exact Host.Outcome.next.inj h

/-! ### The equal flag -/

/-- An instruction that is no comparison and no JMPE carries the flag along. -/
theorem exec_setFlag {i : Instr} (hcompare : ¬ IsComparison i) (hjmpe : ∀ ra, i ≠ .jmpe ra) (b : Bool) (s : State) :
    exec i (s.setFlag b) = onNext (·.setFlag b) (exec i s) :=
  exec_unread (unread_setFlag b) (fun _ _ _ => rfl) (fun h => absurd h hcompare) fun ⟨ra, h⟩ => absurd h (hjmpe ra)

/-- A comparison overwrites the flag. -/
theorem exec_setFlag_of_comparison {i : Instr} (h : IsComparison i) (b : Bool) (s : State) :
    exec i (s.setFlag b) = exec i s := by
  obtain ⟨rs1, rs2, pad, rfl | rfl | rfl | rfl | rfl | rfl⟩ := h <;> rfl

/-- An instruction that is no comparison leaves the flag: writing the flag it had changes nothing. -/
theorem flag_of_exec {i : Instr} (hcompare : ¬ IsComparison i) {s t : State} (h : exec i s = .next t) :
    t.flag = s.flag := by
  have hsame : exec i s = onNext (·.setFlag s.flag) (exec i s) :=
    exec_unread (unread_setFlag s.flag) (fun _ _ _ => rfl) (fun h => absurd h hcompare) fun _ => rfl
  rw [eq_update_of_onNext hsame h]
  rfl

theorem sameButFlag_refl (p : Prop) (a : Result) : SameButFlag p a a := by
  cases a with
  | next t => exact ⟨rfl, fun _ => rfl⟩
  | fault | refused => exact rfl

theorem sameButFlag_onNext {p : Prop} (hp : ¬ p) (b : Bool) (a : Result) :
    SameButFlag p a (onNext (·.setFlag b) a) := by
  cases a with
  | next t => exact ⟨rfl, fun h => absurd h hp⟩
  | fault | refused => exact rfl

/-- Settles O45: a step that is no comparison leaves the flag; a comparison overwrites it, and of the others only JMPE
depends on it. -/
theorem equalFlagAccess : Obligations.EqualFlagAccess := by
  refine ⟨fun s t h hflag => ?_, fun i s b hjmpe => ?_⟩
  · obtain ⟨-, rfl⟩ | ⟨-, rfl⟩ | ⟨i, hfetch, hexec⟩ := step_next_cases h
    · exact absurd rfl hflag
    · exact absurd rfl hflag
    · exact ⟨i, hfetch, not_not.mp fun hcompare => hflag (flag_of_exec hcompare hexec)⟩
  · by_cases hcompare : IsComparison i
    · exact (exec_setFlag_of_comparison hcompare b s).symm ▸ sameButFlag_refl _ _
    · exact (exec_setFlag hcompare hjmpe b s).symm ▸ sameButFlag_onNext hcompare b _

/-! ### The remainder register -/

/-- An instruction that is no DIV carries `rem` along. -/
theorem exec_setRem {i : Instr} (hdiv : ¬ IsDiv i) (w : Word) (s : State) :
    exec i (s.setRem w) = onNext (·.setRem w) (exec i s) :=
  exec_unread (unread_setRem w) (fun h => absurd h hdiv) (fun _ _ _ => rfl) fun _ => rfl

/-- DIV overwrites `rem`. -/
theorem exec_setRem_of_div {i : Instr} (h : IsDiv i) (w : Word) (s : State) : exec i (s.setRem w) = exec i s := by
  obtain ⟨rs1, rs2, rd, rfl⟩ := h
  rfl

/-- An instruction that is no DIV leaves `rem`: writing what it held changes nothing. -/
theorem rem_of_exec {i : Instr} (hdiv : ¬ IsDiv i) {s t : State} (h : exec i s = .next t) : t.rem = s.rem := by
  rw [eq_update_of_onNext (exec_setRem hdiv s.rem s) h]
  rfl

/-- No phase before EXECUTE reads `rem`. -/
theorem fetch_setRem (w : Word) (s : State) : fetch (s.setRem w) = fetch s := rfl

/-- A step that is no DIV carries `rem` along. -/
theorem step_setRem {s : State} (hdiv : ∀ i, fetch s = .instr i → ¬ IsDiv i) (w : Word) :
    step (s.setRem w) = onNext (·.setRem w) (step s) := by
  unfold step
  rw [fetch_setRem]
  cases hfetch : fetch s with
  | notResumed | endOfProgram | fault => rfl
  | instr i => exact exec_setRem (hdiv i hfetch) w s

theorem sameButRem_refl {p : Prop} (hp : p) (w : Word) (a : Result) : SameButRem p w a a := by
  cases a with
  | next t => exact ⟨rfl, fun _ => rfl, fun h => absurd hp h⟩
  | fault | refused => exact rfl

theorem sameButRem_onNext {p : Prop} (hp : ¬ p) (w : Word) (a : Result) :
    SameButRem p w a (onNext (·.setRem w) a) := by
  cases a with
  | next t => exact ⟨rfl, fun h => absurd h hp, fun _ => rfl⟩
  | fault | refused => exact rfl

/-- Settles O46: a step that is no DIV carries `rem` along, and a DIV overwrites it. -/
theorem remainderIsWriteOnly : Obligations.RemainderIsWriteOnly := by
  refine ⟨fun s t h hrem => ?_, fun s w => ?_⟩
  · obtain ⟨-, rfl⟩ | ⟨-, rfl⟩ | ⟨i, hfetch, hexec⟩ := step_next_cases h
    · exact absurd rfl hrem
    · exact absurd rfl hrem
    · obtain ⟨rs1, rs2, rd, rfl⟩ : IsDiv i := not_not.mp fun hdiv => hrem (rem_of_exec hdiv hexec)
      exact ⟨rs1, rs2, rd, hfetch⟩
  · by_cases hdiv : ∃ rs1 rs2 rd, fetch s = .instr (.div rs1 rs2 rd)
    · obtain ⟨rs1, rs2, rd, hfetch⟩ := hdiv
      have hsame : step (s.setRem w) = step s := by
        rw [step_of_instr hfetch, step_of_instr ((fetch_setRem w s).trans hfetch),
          exec_setRem_of_div ⟨rs1, rs2, rd, rfl⟩]
      exact hsame.symm ▸ sameButRem_refl ⟨rs1, rs2, rd, hfetch⟩ w _
    · have hcarried := step_setRem (s := s) (w := w) fun i hfetch ⟨rs1, rs2, rd, hi⟩ =>
        hdiv ⟨rs1, rs2, rd, hi ▸ hfetch⟩
      exact hcarried.symm ▸ sameButRem_onNext hdiv w _

/-! ### The buffer and the offset -/

/-- Settles O47: no completed instruction writes the buffer, and the other next states are `s` and its halt. -/
theorem stepsNeverWriteTheBuffer : Obligations.StepsNeverWriteTheBuffer := by
  intro s t h
  obtain ⟨-, rfl⟩ | ⟨-, rfl⟩ | ⟨i, -, hexec⟩ := step_next_cases h
  · exact ⟨rfl, rfl⟩
  · exact ⟨rfl, rfl⟩
  · obtain ⟨hbuf, hlen, -⟩ := exec_next hexec
    exact ⟨hbuf, hlen⟩

/-- Every instruction has an opcode byte. -/
theorem instr_length_pos (i : Instr) : 0 < i.length := by
  rw [← length_encodeOperands hwConfig i]
  exact Nat.succ_pos _

/-- The offset after a fetched instruction is at most `len`: the decoder read its bytes there. -/
theorem pc_add_length_le_of_fetch {s : State} {i : Instr} (h : fetch s = .instr i) : s.pc + i.length ≤ s.len := by
  obtain ⟨-, hpc, hdecode⟩ := fetch_eq_instr.mp h
  have hlen := length_le_of_decodeWith hdecode
  rw [length_window] at hlen
  omega

theorem pc_le_len_of_checkTarget {op : Opcode} {ra : Reg} {v : Int} {s t : State}
    (h : checkTarget op ra v s = .next t) : t.pc ≤ s.len := by
  obtain ⟨-, hlen, rfl⟩ := checkTarget_next h
  exact Int.toNat_le.mpr hlen

/-- A taken jump's target was checked against `len` (R155). -/
theorem pc_le_len_of_jumpTaken {i : Instr} {s t : State} (hjump : JumpTaken i s) (h : exec i s = .next t) :
    t.pc ≤ s.len := by
  obtain ⟨ra, rfl⟩ | ⟨ra, rfl⟩ | ⟨ra, rfl⟩ | ⟨⟨ra, rfl⟩, hflag⟩ := hjump
  · exact pc_le_len_of_checkTarget h
  · exact pc_le_len_of_checkTarget (next_of_guard h)
  · exact pc_le_len_of_checkTarget (next_of_guard h)
  · rw [exec, execJmpe, if_pos hflag] at h
    exact pc_le_len_of_checkTarget h

/-- A fetched instruction that completes leaves `pc` within the buffer. -/
theorem pc_le_len_of_exec {i : Instr} {s t : State} (hfetch : fetch s = .instr i) (h : exec i s = .next t) :
    t.pc ≤ s.len := by
  by_cases hjump : JumpTaken i s
  · exact pc_le_len_of_jumpTaken hjump h
  · rw [pc_of_exec_not_jumpTaken hjump h]
    exact pc_add_length_le_of_fetch hfetch

/-- Settles O51: no step writes the buffer, and each leaves `pc` where it was or within the buffer. -/
theorem stepKeepsTheInvariant : Obligations.StepKeepsTheInvariant := by
  rintro cap s t ⟨hpc, hcap, hbuf⟩ h
  obtain ⟨hbuf_eq, hlen_eq⟩ := stepsNeverWriteTheBuffer s t h
  refine ⟨?_, hlen_eq ▸ hcap, by rwa [State.BufOk, hbuf_eq, hlen_eq]⟩
  obtain ⟨-, rfl⟩ | ⟨-, rfl⟩ | ⟨i, hfetch, hexec⟩ := step_next_cases h
  · exact hpc
  · exact hpc
  · rw [hlen_eq]
    exact pc_le_len_of_exec hfetch hexec

/-- A completed instruction is reported as none of the stops that complete none. -/
theorem completedOutcome_ne_halted {i : Instr} {r : HaltReason} (hr : r = .endOfProgram ∨ r = .notResumed) :
    completedOutcome i ≠ .halted r := by
  intro h
  obtain ⟨-, rfl⟩ | ⟨b, -, rfl⟩ := haltReason_eq_some (haltReason_of_completedOutcome h)
  · exact absurd hr (by simp)
  · exact absurd hr (by simp)

/-- Settles O40: a completed instruction that is no jump moves `pc` by its length, which is not 0. -/
theorem programCounterGrowsWithoutJumps : Obligations.ProgramCounterGrowsWithoutJumps := by
  intro s t o h
  obtain ⟨-, rfl, rfl⟩ | ⟨rfl, rfl⟩ | ⟨f, rfl, rfl⟩ | ⟨i, hfetch, hexec, rfl⟩ := stepCommand_cases h
  · exact ⟨by simp, fun _ => rfl⟩
  · exact ⟨by simp, fun _ => rfl⟩
  · exact ⟨by simp, fun _ => rfl⟩
  · refine ⟨fun _ hnone => ?_, fun hstop => ?_⟩
    · have hjump : ¬ JumpTaken i s := by
        rintro (⟨ra, rfl⟩ | ⟨ra, rfl⟩ | ⟨ra, rfl⟩ | ⟨⟨ra, rfl⟩, -⟩) <;> simp [hfetch] at hnone
      rw [pc_of_exec_not_jumpTaken hjump hexec]
      exact Nat.lt_add_of_pos_right (instr_length_pos i)
    · obtain ⟨f, ho⟩ | ho | ho := hstop
      · exact absurd ho (completedOutcome_ne_fault i f)
      · exact absurd ho (completedOutcome_ne_halted (.inl rfl))
      · exact absurd ho (completedOutcome_ne_halted (.inr rfl))

/-- Settles O41: a blocked core's step is itself, so induction on the number of steps leaves it. -/
theorem haltedCoreStays : Obligations.HaltedCoreStays := by
  intro s n hrun harmed
  obtain ⟨hstep, hcommand⟩ := step_of_notResumed (fetch_of_blocked ((blocked_iff s).mpr ⟨hrun, harmed⟩))
  constructor
  · induction n with
    | zero => rfl
    | succ n ih => simpa only [Host.Core.run, core, hstep] using ih
  · simp only [runToHalt, hcommand]

end Sys2Proof.Proofs
end

section
/-! PROOF. The host's appends (20_memory.md; 40_cycle.md R106): what one adds and leaves, how it arms the core and cures
a truncated instruction. Then the properties that every host command keeps, and so every session (40_cycle.md R100). -/

open Sys2Proof Sys2Proof.Machine Sys2Proof.Claims

namespace Sys2Proof.Proofs

/-! ### What an append leaves -/

/-- An accepted append fits the capacity, and its state is the appended one. -/
theorem appendBytesWithin_ok {cap : Nat} {s t : State} {bytes : List Byte} (h : appendBytesWithin cap s bytes = .ok t) :
    s.len + bytes.length ≤ cap ∧ t = s.append bytes := by
  unfold appendBytesWithin at h
  split at h
  · exact absurd h nofun
  · exact ⟨Nat.not_lt.mp ‹_›, (Except.ok.inj h).symm⟩

/-- Settles O49: the capacity is checked before anything is written. -/
theorem appendRespectsCapacity : Obligations.AppendRespectsCapacity := by
  refine fun cap s bytes => ⟨fun hfits => ?_, fun hexceeds => ?_⟩
  · simp only [command, appendBytesWithin, if_neg (Nat.not_lt.mpr hfits)]
  · simp only [command, appendBytesWithin, if_pos hexceeds]

theorem append_nil (s : State) : s.append [] = s := by
  simp [State.append, Memory.writeBytes]

section Append

variable {s : State} (hs : s.BufOk) (bytes : List Byte)
include hs

/-- Bytes below the old `len` are not rewritten. -/
theorem byteAt_append_of_lt {a : Nat} (ha : a < s.len) : (s.append bytes).byteAt a = s.byteAt a := by
  rw [State.byteAt, State.append_buf, Memory.read_writeBytes hs.1, if_neg (by omega)]
  rfl

/-- The bytes appended stand in order from the old `len` on. -/
theorem byteAt_append_len_add {k : Nat} (hk : k < bytes.length) :
    (s.append bytes).byteAt (s.len + k) = bytes[k] := by
  rw [State.byteAt, State.append_buf, Memory.read_writeBytes hs.1, if_pos (by omega), Nat.add_sub_cancel_left,
    List.getD_eq_getElem _ _ hk]

theorem bufOk_append : (s.append bytes).BufOk := by
  obtain ⟨hwf, hbelow⟩ := hs
  refine ⟨Memory.writeBytes_wf hwf s.len bytes, fun c hc => ?_⟩
  rw [State.append_len]
  obtain ⟨-, hnew⟩ | hold := Memory.mem_writeBytes hc
  · exact hnew
  · exact Nat.lt_add_right _ (hbelow c hold)

end Append

/-- Settles O48: the bytes are written from the old `len` on. -/
theorem appendAddsAtTheEnd : Obligations.AppendAddsAtTheEnd := by
  intro cap s t bytes hs h
  obtain ⟨-, rfl⟩ := appendBytesWithin_ok h
  exact ⟨rfl, fun _ hk => byteAt_append_len_add hs bytes hk, fun _ ha => byteAt_append_of_lt hs bytes ha,
    bufOk_append hs bytes⟩

/-! ### The step after an append -/

/-- An armed core is not blocked. -/
theorem blocked_of_armed {s : State} (h : s.armed = true) : s.blocked = false := by
  simp [State.blocked, h]

/-- An armed core's step is never NotResumed. -/
theorem stepCommand_ne_notResumed {s : State} (h : s.armed = true) : (stepCommand s).1 ≠ .halted .notResumed := by
  intro ho
  obtain ⟨hblocked, -⟩ | ⟨hend, -⟩ | ⟨f, hfault, -⟩ | ⟨i, -, -, hdone⟩ := stepCommand_cases (s := s) rfl
  · exact absurd hblocked (by simp [blocked_of_armed h])
  · exact absurd (ho.symm.trans hend) nofun
  · exact absurd (ho.symm.trans hfault) nofun
  · exact completedOutcome_ne_halted (.inr rfl) (hdone.symm.trans ho)

/-- Settles O42: an append writes the buffer, `len` and `armed` alone, and an armed core is not blocked. -/
theorem appendArmsTheCore : Obligations.AppendArmsTheCore := by
  intro cap s t bytes h
  obtain ⟨-, rfl⟩ := appendBytesWithin_ok h
  refine ⟨rfl, rfl, fun _ => rfl, rfl, rfl, ?_, fun hne => ?_⟩
  · rintro rfl
    exact append_nil s
  · have harmed : (s.append bytes).armed = true := by simp [hne]
    exact ⟨harmed, stepCommand_ne_notResumed harmed, fun i hpc hdecode =>
      step_of_instr (fetch_eq_instr.mpr ⟨blocked_of_armed harmed, hpc, hdecode⟩)⟩

/-- A step raises TruncatedInstruction only where the instruction runs past `len`. -/
theorem truncated_of_step {s : State} {r : FaultRecord} (h : step s = .fault (.truncatedInstruction r)) :
    Ready s ∧ s.len < s.pc + (decodeOpcode hwConfig (byte s 0)).length := by
  obtain hfetch | ⟨i, -, hexec⟩ := step_fault_cases h
  · have hs := ready_of_fetch_fault hfetch
    refine ⟨hs, ?_⟩
    obtain ⟨hshort, -⟩ | ⟨k, -, -, hbad⟩ | ⟨i, hinstr⟩ := fetch_cases_of_ready hs
    · exact hshort
    · exact absurd (hbad.symm.trans hfetch) nofun
    · exact absurd (hinstr.symm.trans hfetch) nofun
  · exact absurd rfl ((faultOf_of_exec hexec).2.2 r)

/-- Settles O43: the appended buffer keeps the opcode byte and holds the whole instruction. -/
theorem appendCuresTruncation : Obligations.AppendCuresTruncation := by
  intro s bytes r hs h hfits r' h'
  obtain ⟨hready, -⟩ := truncated_of_step h
  obtain ⟨-, hshort⟩ := truncated_of_step h'
  have hopcode : byte (s.append bytes) 0 = byte s 0 := byteAt_append_of_lt hs bytes hready.2
  rw [hopcode] at hshort
  exact absurd hshort (Nat.not_lt.mpr hfits)

/-! ### What every command keeps, every session keeps -/

/-- The state a step leaves is its next state, or after a fault the state before it. -/
theorem step_of_stepCommand {s t : State} {o : StepOutcome} (h : stepCommand s = (o, t)) :
    step s = .next t ∨ t = s := by
  have hanswer := answerOf_stepCommand s
  rw [h] at hanswer
  cases o with
  | running | halted => exact .inl hanswer.symm
  | fault => exact .inr (state_of_stepCommand_fault h)
  | refused r => exact absurd hanswer.symm (noStepIsRefused s r)

section Sessions

variable {cap : Nat} {P : State → Prop} (hstep : ∀ s t, P s → step s = .next t → P t)
include hstep

theorem stepCommand_keeps {s t : State} {o : StepOutcome} (hs : P s) (h : stepCommand s = (o, t)) : P t := by
  obtain hnext | rfl := step_of_stepCommand h
  · exact hstep s t hs hnext
  · exact hs

theorem runToHalt_keeps (fuel : Nat) {s : State} (hs : P s) : P (runToHalt fuel s).2 := by
  induction fuel generalizing s with
  | zero => exact hs
  | succ fuel ih =>
    unfold runToHalt
    split
    next t h => exact ih (stepCommand_keeps hstep hs h)
    next o t _ h => exact stepCommand_keeps hstep hs h

variable (happend : ∀ s bytes, P s → s.len + bytes.length ≤ cap → P (s.append bytes))
include happend

theorem command_keeps (c : Command) {s : State} (hs : P s) : P (command cap c s).2 := by
  cases c with
  | step => exact stepCommand_keeps hstep hs rfl
  | runToHalt fuel =>
    have hrun := runToHalt_keeps hstep fuel hs
    simp only [command]
    split <;> rwa [‹runToHalt fuel s = _›] at hrun
  | appendBytes bytes =>
    simp only [command]
    split
    next t h =>
      obtain ⟨hfits, rfl⟩ := appendBytesWithin_ok h
      exact happend s bytes hs hfits
    next => exact hs
  | read q => exact hs

/-- A property that every step and every accepted append keeps is kept by every session. -/
theorem session_keeps (cs : List Command) {s : State} (hs : P s) : P (session cap cs s).2 := by
  induction cs generalizing s with
  | nil => exact hs
  | cons c cs ih =>
    have hc := command_keeps hstep happend c hs
    cases h : command cap c s with
    | mk r t =>
      rw [h] at hc
      by_cases hr : r = .stillRunning
      · subst hr
        rwa [session_of_stillRunning h]
      · rw [session_of_completed h hr]
        exact ih hc

end Sessions

/-- The buffer of `t` is canonical and continues that of `s`. -/
def Continues (s t : State) : Prop := t.BufOk ∧ s.len ≤ t.len ∧ ∀ a, a < s.len → t.byteAt a = s.byteAt a

theorem continues_of_step {s t u : State} (h : Continues s t) (hstep : step t = .next u) : Continues s u := by
  obtain ⟨hbuf, hlen⟩ := stepsNeverWriteTheBuffer t u hstep
  simpa only [Continues, State.BufOk, State.byteAt, hbuf, hlen] using h

theorem continues_of_append {s t : State} (h : Continues s t) (bytes : List Byte) : Continues s (t.append bytes) := by
  obtain ⟨hbuf, hlen, hbytes⟩ := h
  refine ⟨bufOk_append hbuf bytes, Nat.le_add_right_of_le hlen, fun a ha => ?_⟩
  rw [byteAt_append_of_lt hbuf bytes (by omega), hbytes a ha]

/-- Settles O50: a step leaves the buffer and an append continues it, so every session continues it. -/
theorem bufferIsAppendOnly : Obligations.BufferIsAppendOnly := by
  intro cap cs s hs
  have hstart : Continues s s := ⟨hs, le_rfl, fun _ _ => rfl⟩
  exact (session_keeps (cap := cap) (P := Continues s) (fun _ _ => continues_of_step)
    (fun _ bytes h _ => continues_of_append h bytes) cs hstart).2

/-- An append that fits the capacity keeps the invariant. -/
theorem inv_append {cap : Nat} {s : State} {bytes : List Byte} (h : s.Inv cap) (hfits : s.len + bytes.length ≤ cap) :
    (s.append bytes).Inv cap := by
  obtain ⟨hpc, -, hbuf⟩ := h
  exact ⟨Nat.le_add_right_of_le hpc, hfits, bufOk_append hbuf bytes⟩

/-- Settles O53: every step and every accepted append keeps the invariant. -/
theorem sessionsKeepTheInvariant : Obligations.SessionsKeepTheInvariant :=
  fun cap cs _ h => session_keeps (P := State.Inv cap) (stepKeepsTheInvariant cap) (fun _ _ => inv_append) cs h

/-- Settles O59: by induction on the commands, each going on from the state the one before it left or ending
the session. -/
theorem sessionsRunEachCommandToCompletion : Obligations.SessionsRunEachCommandToCompletion := by
  intro cap cs ds s
  induction cs generalizing s with
  | nil => exact ⟨fun _ => ⟨rfl, rfl⟩, fun h => absurd h List.not_mem_nil⟩
  | cons c cs ih =>
    cases h : command cap c s with
    | mk r t =>
      rw [List.cons_append]
      by_cases hr : r = .stillRunning
      · subst hr
        rw [session_of_stillRunning h, session_of_stillRunning h]
        exact ⟨fun hmem => absurd List.mem_cons_self hmem, fun _ => rfl⟩
      · obtain ⟨hall, hstopped⟩ := ih t
        rw [session_of_completed h hr, session_of_completed h hr]
        refine ⟨fun hmem => ?_, fun hmem => ?_⟩
        · obtain ⟨hlength, happend⟩ := hall fun hin => hmem (List.mem_cons_of_mem r hin)
          exact ⟨congrArg Nat.succ hlength, by rw [happend, List.cons_append]⟩
        · rw [hstopped ((List.mem_cons.mp hmem).resolve_left (Ne.symm hr))]

end Sys2Proof.Proofs
end

section
/-! PROOF. Where the machine starts (70_reset_and_hazards.md) and how a run ends: `runToHalt` answers the report of the
first step that is not Running (40_cycle.md R108). -/

open Sys2Proof Sys2Proof.Machine Sys2Proof.Claims

namespace Sys2Proof.Proofs

/-! ### Reset -/

/-- Settles O52: at reset `pc` and `len` are 0 and the buffer is empty. -/
theorem resetMeetsTheInvariant : Obligations.ResetMeetsTheInvariant :=
  fun cap => ⟨le_rfl, Nat.zero_le cap, reset_buf_wf, nofun⟩

/-- Settles O54: every register is read from the zero word, and the fields are as State.reset writes them. -/
theorem resetValues : Obligations.ResetValues := by
  refine ⟨fun r => ?_, rfl, rfl, rfl, rfl, rfl, rfl, rfl⟩
  simp [State.reg, State.reset, Vector.get_eq_getElem]

/-- Settles O55: at reset the core is not blocked, and END_CHECK finds no byte. -/
theorem firstStepFindsNoProgram : Obligations.FirstStepFindsNoProgram :=
  (step_of_endOfProgram (fetch_of_end rfl le_rfl)).2

/-! ### runToHalt -/

/-- A run whose first step stops answers that step's report. -/
theorem runToHalt_of_stop {fuel : Nat} {s t : State} {o : StepOutcome} (h : stepCommand s = (o, t))
    (ho : o ≠ .running) : runToHalt (fuel + 1) s = (some o, t) := by
  cases o with
  | running => exact absurd rfl ho
  | halted | fault | refused => simp only [runToHalt, h]

/-- A run whose first step is Running goes on with one step less. -/
theorem runToHalt_of_running {fuel : Nat} {s t : State} (h : stepCommand s = (.running, t)) :
    runToHalt (fuel + 1) s = runToHalt fuel t := by
  simp only [runToHalt, h]

/-- Settles O56: by induction on the Running steps. -/
theorem runToHaltStopsAtTheFirstStop : Obligations.RunToHaltStopsAtTheFirstStop := by
  intro n
  induction n with
  | zero =>
    rintro s _ rfl
    refine ⟨rfl, fun t o extra h ho => ?_⟩
    rw [Nat.zero_add, Nat.add_comm]
    exact runToHalt_of_stop h ho
  | succ n ih =>
    rintro s u ⟨v, hv, hsteps⟩
    obtain ⟨hrunning, hstop⟩ := ih v u hsteps
    refine ⟨(runToHalt_of_running hv).trans hrunning, fun t o extra h ho => ?_⟩
    rw [show n + 1 + 1 + extra = n + 1 + extra + 1 by omega, runToHalt_of_running hv]
    exact hstop t o extra h ho

/-- Settles O57: by induction on the fuel. -/
theorem runToHaltAnswersAStepsOutcome : Obligations.RunToHaltAnswersAStepsOutcome := by
  intro fuel
  induction fuel with
  | zero =>
    intro s t o h
    exact absurd (Prod.mk.inj h).1 nofun
  | succ fuel ih =>
    intro s t o h
    cases hstep : stepCommand s with
    | mk o' v =>
      by_cases ho : o' = .running
      · subst ho
        rw [runToHalt_of_running hstep] at h
        obtain ⟨hne, n, u, hn, hsteps, hu⟩ := ih v t o h
        exact ⟨hne, n + 1, u, Nat.succ_lt_succ hn, ⟨v, hstep, hsteps⟩, hu⟩
      · obtain ⟨hsome, rfl⟩ := Prod.mk.inj ((runToHalt_of_stop hstep ho).symm.trans h)
        obtain rfl := Option.some.inj hsome
        exact ⟨ho, 0, s, Nat.succ_pos fuel, rfl, hstep⟩

/-- Settles O58: the run's outcome was reported by its last step, and a graceful one is Halted. -/
theorem gracefulRunsEndHalted : Obligations.GracefulRunsEndHalted := by
  intro fuel s t o h hgraceful
  obtain ⟨-, n, u, -, -, hstep⟩ := runToHaltAnswersAStepsOutcome fuel s t o h
  cases o with
  | halted r => exact halted_of_halted hstep
  | running | fault | refused => exact absurd hgraceful nofun

end Sys2Proof.Proofs
end
